-- ==== Sys2Proof/Word.lean ====
section
/-! DEFINITION. The words of the block: bytes, motion samples, and what can stand on its ports. -/

namespace Sys2Proof

/-- A byte, 8 bits (R9). -/
abbrev Byte := BitVec 8

/-- Six integers in the order of R84: three accelerations, three angular velocities. As a result of DECODE each is an
`i16` (R15); as an operand of ENCSLOT or SYNCYC each is an integer of any size (R90, R130; log entry 17). -/
structure Sample where
  ax : Int
  ay : Int
  az : Int
  gx : Int
  gy : Int
  gz : Int
  deriving DecidableEq, Repr

/-- The six fields in the order of their offsets (R84). -/
def Sample.toList (v : Sample) : List Int := [v.ax, v.ay, v.az, v.gx, v.gy, v.gz]

/-- Where an emitted frame goes (R13, R21, D24). -/
inductive Sink where
  | transport
  | pairing
  deriving DecidableEq, Repr

/-- The values on the input ports when an operation is issued (R21, R95). `len` is the port `L`. -/
structure CommandWord where
  op : BitVec 4
  rx : List Byte
  len : Nat
  slot : BitVec 2
  v : Sample
  c : Byte
  id : Byte
  p : List Byte
  deriving DecidableEq, Repr

/-- The ports with only `op` driven, every operand port zero or empty. -/
def CommandWord.ofOp (op : BitVec 4) : CommandWord :=
  { op := op, rx := [], len := 0, slot := 0, v := ⟨0, 0, 0, 0, 0, 0⟩, c := 0, id := 0, p := [] }

/-- What the host can present: an operation on the command port (R95), an inbound buffer (format RPT, R81), or an
outbound frame with its sink tag (format FRAME, R86; `tx` of R21). Log entries 1, 9, 10. -/
inductive Word where
  | command (w : CommandWord)
  | report (rx : List Byte)
  | frame (sink : Sink) (bytes : List Byte)
  deriving DecidableEq, Repr

end Sys2Proof
end

