-- ==== Sys2Proof/Config.lean ====
section
/-! DEFINITION. What the source leaves open (R8): opaque constants, so that no proof can see a value. -/

namespace Sys2Proof

/-- `MOTION_BASE - 3`. R8 leaves `MOTION_BASE` open in 3 to 28, which are 26 values (D9, U2; log entry 4). -/
opaque Config.motionIndex : Fin 26

/-- `SYNTH_ID`, the id byte of a synthetic frame, any byte (R8, D10, U3; log entry 4). -/
opaque Config.synthId : Byte

/-- The (offset, byte) pairs from which `AUX` of a cycle is taken (R8, R184, D29, U4; log entry 5). -/
opaque Config.auxDraw : Nat → List (Nat × Byte)

/-- The answers of the transport, one free boolean per emit (R31, U1; log entry 6). -/
opaque Config.transportOk : Nat → Bool

end Sys2Proof
end

