-- ==== Sys2Proof/Syntax.lean ====
section
/-! DEFINITION. The instructions: one constructor per row of spec/opcode_table.json. -/

namespace Sys2Proof

/-- The seven operations (R93, R95) and the six wire patterns (R96) of the table. -/
inductive Instr where
  /-- DECODE `rx`, `L` (R110). -/
  | decode (rx : List Byte) (len : Nat)
  /-- ENCSLOT `slot`, `v[0..5]` (R130). -/
  | encslot (slot : BitVec 2) (v : Sample)
  /-- BUILD `c`, `id`, `p` (R150). -/
  | build (c id : Byte) (p : List Byte)
  /-- SEND `id`, `p` (R155). -/
  | send (id : Byte) (p : List Byte)
  /-- ENABLE (R159). -/
  | enable
  /-- DISABLE (R163). -/
  | disable
  /-- SYNCYC `v[0..5]` (R180). -/
  | syncyc (v : Sample)
  /-- RPT.STD: a report with tag `0x30`; `rest` is every byte after the tag (R81). -/
  | rptStd (rest : List Byte)
  /-- FRAME: an outbound frame; `p` is every byte after the id (R86). -/
  | frame (c id : Byte) (p : List Byte)
  /-- FRAME.SET_MODE_STD: `80 c 03 30` and zeros (R91). -/
  | frameSetModeStd (c : Byte)
  /-- FRAME.TELEMETRY_ON: `80 c 40 01` and zeros (R91). -/
  | frameTelemetryOn (c : Byte)
  /-- FRAME.TELEMETRY_OFF: `80 c 40 00` and zeros (R91). -/
  | frameTelemetryOff (c : Byte)
  /-- FRAME.SYNTH: a dispatched synthetic frame; `p` is bytes 3 to 63 (R92). -/
  | frameSynth (c id : Byte) (p : List Byte)
  deriving DecidableEq, Repr

end Sys2Proof
end

