-- ==== Sys2Proof/WellFormed.lean ====
section
/-! DEFINITION. Which instructions are within the spec's operand ranges (R97) and wire formats (R81, R86, R91). -/

namespace Sys2Proof

/-- Id and bytes 3 to 63 of the three device commands (R91): the rest of the payload is zero. -/
def isSetModeStd (id : Byte) (p : List Byte) : Bool := id == 0x03 && p == 0x30 :: List.replicate 60 0

/-- `TELEMETRY_ON` of R91. -/
def isTelemetryOn (id : Byte) (p : List Byte) : Bool := id == 0x40 && p == 0x01 :: List.replicate 60 0

/-- `TELEMETRY_OFF` of R91. -/
def isTelemetryOff (id : Byte) (p : List Byte) : Bool := id == 0x40 && p == 0x00 :: List.replicate 60 0

/-- The operand ranges of R97, and for a wire pattern the length of its buffer. A generic FRAME is one that no device
command of R91 names, so that a buffer has one reading. -/
def Instr.wellFormed : Instr → Bool
  | .decode rx len => decide (len ≤ 64) && decide (rx.length = len)
  | .encslot slot _ => slot != 3
  | .build _ _ p => decide (p.length ≤ 61)
  | .send _ p => decide (p.length ≤ 61)
  | .enable => true
  | .disable => true
  | .syncyc _ => true
  | .rptStd rest => decide (48 ≤ rest.length) && decide (rest.length ≤ 63)
  | .frame _ id p =>
    decide (p.length = 61) && !isSetModeStd id p && !isTelemetryOn id p && !isTelemetryOff id p
  | .frameSetModeStd _ => true
  | .frameTelemetryOn _ => true
  | .frameTelemetryOff _ => true
  | .frameSynth _ _ p => decide (p.length = 61)

end Sys2Proof
end

