-- ==== Sys2Proof/Decode.lean ====
section
/-! DEFINITION. Decoding of what the host presents, total, rejecting by name; then the encoder. -/

namespace Sys2Proof

/-- Why a word is no instruction of the table. -/
inductive DecodeError where
  /-- `op` 7 to 15 selects nothing (R93, R97). -/
  | badOp
  /-- An inbound buffer of more than 64 bytes, which the port cannot carry (R97, D4). -/
  | reportTooLong
  /-- An inbound buffer that is not sample-bearing: shorter than 49 bytes or a tag other than `0x30` (R82, R112). -/
  | notSampleBearing
  /-- An outbound buffer that is not 64 bytes with marker `0x80` (R86). -/
  | noFrameFormat
  deriving DecidableEq, Repr

/-- The command port (R95). -/
def decodeCommand (w : CommandWord) : Except DecodeError Instr :=
  match w.op.toNat with
  | 0 => .ok (.decode w.rx w.len)
  | 1 => .ok (.encslot w.slot w.v)
  | 2 => .ok (.build w.c w.id w.p)
  | 3 => .ok (.send w.id w.p)
  | 4 => .ok .enable
  | 5 => .ok .disable
  | 6 => .ok (.syncyc w.v)
  | _ => .error .badOp

/-- An inbound buffer (R81, R82). -/
def decodeReport : List Byte → Except DecodeError Instr
  | [] => .error .notSampleBearing
  | tag :: rest =>
    if 63 < rest.length then .error .reportTooLong
    else if tag = 0x30 ∧ 48 ≤ rest.length then .ok (.rptStd rest)
    else .error .notSampleBearing

/-- A frame of the right size and marker, read by its sink and its bytes (R86, R91, R92). The patterns of FRAME and
FRAME.SYNTH are the same bits, so the sink tag of `tx` tells them apart (log entry 10). -/
def decodeFrameFields (sink : Sink) (c id : Byte) (p : List Byte) : Instr :=
  match sink with
  | .pairing => .frameSynth c id p
  | .transport =>
    if isSetModeStd id p then .frameSetModeStd c
    else if isTelemetryOn id p then .frameTelemetryOn c
    else if isTelemetryOff id p then .frameTelemetryOff c
    else .frame c id p

/-- An outbound buffer with its sink tag (R86, R96). -/
def decodeFrame (sink : Sink) : List Byte → Except DecodeError Instr
  | marker :: c :: id :: p =>
    if marker = 0x80 ∧ p.length = 61 then .ok (decodeFrameFields sink c id p) else .error .noFrameFormat
  | _ => .error .noFrameFormat

/-- Decoding, total on every word. -/
def decode : Word → Except DecodeError Instr
  | .command w => decodeCommand w
  | .report rx => decodeReport rx
  | .frame sink bytes => decodeFrame sink bytes

/-- The word that stands for an instruction, written from R95, R81, R86 and R91; unused operand ports are zero. -/
def encode : Instr → Word
  | .decode rx len => .command { CommandWord.ofOp 0 with rx := rx, len := len }
  | .encslot slot v => .command { CommandWord.ofOp 1 with slot := slot, v := v }
  | .build c id p => .command { CommandWord.ofOp 2 with c := c, id := id, p := p }
  | .send id p => .command { CommandWord.ofOp 3 with id := id, p := p }
  | .enable => .command (CommandWord.ofOp 4)
  | .disable => .command (CommandWord.ofOp 5)
  | .syncyc v => .command { CommandWord.ofOp 6 with v := v }
  | .rptStd rest => .report (0x30 :: rest)
  | .frame c id p => .frame .transport (0x80 :: c :: id :: p)
  | .frameSetModeStd c => .frame .transport (0x80 :: c :: 0x03 :: 0x30 :: List.replicate 60 0)
  | .frameTelemetryOn c => .frame .transport (0x80 :: c :: 0x40 :: 0x01 :: List.replicate 60 0)
  | .frameTelemetryOff c => .frame .transport (0x80 :: c :: 0x40 :: 0x00 :: List.replicate 60 0)
  | .frameSynth c id p => .frame .pairing (0x80 :: c :: id :: p)

/-- The 64-byte buffer whose first four bytes are the table's 32 bits, byte 0 in bits 31 to 24 (R96), the rest zero. -/
def tableBuffer (w : Nat) : List Byte :=
  [BitVec.ofNat 8 (w / 2 ^ 24), BitVec.ofNat 8 (w / 2 ^ 16), BitVec.ofNat 8 (w / 2 ^ 8), BitVec.ofNat 8 w]
    ++ List.replicate 60 0

/-- The word of a row of the opcode table: a row narrower than 32 bits is a value of `op` (its low four bits, R96) with
every operand port zero; a 32-bit row is the start of a wire buffer, outbound when byte 0 is the marker. -/
def tableWord (nbits w : Nat) : Word :=
  if nbits < 32 then .command (CommandWord.ofOp (BitVec.ofNat 4 w))
  else if BitVec.ofNat 8 (w / 2 ^ 24) = (0x80 : Byte) then .frame .transport (tableBuffer w)
  else .report (tableBuffer w)

/-- The instruction of a row of the opcode table, read by `decode`. -/
def decodeTableWord (nbits w : Nat) : Option Instr :=
  match decode (tableWord nbits w) with
  | .ok i => some i
  | .error _ => none

end Sys2Proof
end

