-- ==== Sys2Proof/Machine/State.lean ====
section
/-! DEFINITION. The state of the block, its reasons to stop, and the state after reset. -/

namespace Sys2Proof.Machine

/-- The 64 bytes of `FRM` (R26, R30): cells with rising offsets, an unlisted offset reading `0x00`, which is what reset
and a fresh frame leave (R34, R183). Log entry 13. -/
abbrev Memory := List Host.Cell

/-- Which send of ENABLE failed (R159, D33). -/
inductive HandshakeSend where
  | first
  | second
  deriving DecidableEq, Repr

/-- The outcomes of R201 with the info each records. -/
inductive Status where
  | ok
  | notTelemetry
  | malformedReport (i : Fin 3)
  | ioError
  | handshakeFailed (k : HandshakeSend)
  | badOperand
  | badOp
  deriving DecidableEq, Repr

/-- The three samples of a report, oldest first (R81, R114). -/
structure Samples where
  s0 : Sample
  s1 : Sample
  s2 : Sample
  deriving DecidableEq, Repr

/-- One frame on `tx`: its bytes and its sink tag (R21). -/
structure Emission where
  sink : Sink
  bytes : List Byte
  deriving DecidableEq, Repr

/-- What the host does to the block: issue a word (R62), or create a session, which is the reset event (R35, R240). -/
inductive HostEvent where
  | issue (w : Word)
  | newSession
  deriving DecidableEq, Repr

/-- No reason: the block never traps, never halts and never enters a faulted state (R200), and no access leaves a
buffer (R54). Nothing raises a fault, so none can be unsafe. -/
inductive Fault where
  deriving DecidableEq, Repr

/-- Why a step gives no next state. -/
inductive Refusal where
  /-- An instruction without a meaning; raised by no arm of `exec` now. Safe: the machine stops. -/
  | notModelled (mnemonic : String)
  /-- Raised by `reject` for a buffer presented as an outbound frame that is not 64 bytes with marker `0x80` (R86): the
  spec gives it no meaning. Safe: the machine stops (log entry 12). -/
  | noWireFormat
  deriving DecidableEq, Repr

/-- The four items of R28, the output ports of R21, and the model's own fields. -/
structure State where
  /-- `CTR`, the packet counter (R25). -/
  ctr : BitVec 8
  /-- `SLOT`, the cycle index modulo 3 (R24; log entry 14). -/
  slot : Fin 3
  /-- `READY` (R27). -/
  ready : Bool
  /-- `FRM`, the in-progress frame (R26). -/
  frm : Memory
  /-- Port `status`: the last outcome, none before the first operation ends (R34). -/
  status : Option Status
  /-- Port `samples`, valid only with `OK` from DECODE (R21). -/
  samples : Option Samples
  /-- Port `frame`, valid only with `OK` from BUILD (R21). -/
  frame : Option (List Byte)
  /-- Port `tx`: every frame emitted in this session, oldest first (R62; log entry 7). -/
  tx : List Emission
  /-- Port `log`: the pulses of this session (R163; log entry 7). -/
  log : Nat
  /-- Model's own: what the host has issued and the block has not taken (log entry 2). -/
  pending : List HostEvent
  /-- Model's own: the port `ok`, answers given for coming emits (log entry 6). -/
  oks : List Bool
  /-- Model's own: index of the next free transport answer (log entry 6). -/
  draws : Nat
  /-- Model's own: the cycle number of R181, read only to draw `AUX` (log entry 5). -/
  cycle : Nat
  deriving DecidableEq, Repr

/-- After reset (R34, R240); the model's own fields as log entries 2, 5, 6, 7 say. -/
def State.reset : State where
  ctr := 0
  slot := 0
  ready := false
  frm := []
  status := none
  samples := none
  frame := none
  tx := []
  log := 0
  pending := []
  oks := []
  draws := 0
  cycle := 0

end Sys2Proof.Machine
end

