-- ==== Sys2Proof/Machine/Ops.lean ====
section
/-! DEFINITION. The named operations over FRM, the ports, the transport and the host's events. -/

namespace Sys2Proof.Machine

/-! ### FRM (R12, R26, R30) -/

/-- The byte at an offset; an unlisted offset reads `0x00` (log entry 13). -/
def Memory.read : Memory → Nat → Byte
  | [], _ => 0
  | (k, b) :: m, a => if k = a then b else Memory.read m a

/-- The list without the cells of one offset. -/
def Memory.erase : Memory → Nat → Memory
  | [], _ => []
  | (k, x) :: m, a => if k = a then Memory.erase m a else (k, x) :: Memory.erase m a

/-- A cell put before the first cell of a higher offset. -/
def Memory.insert : Memory → Nat → Byte → Memory
  | [], a, b => [(a, b)]
  | (k, x) :: m, a, b => if a < k then (a, b) :: (k, x) :: m else (k, x) :: Memory.insert m a b

/-- One byte stored, in the canonical form: a zero byte is not listed. -/
def Memory.write (m : Memory) (a : Nat) (b : Byte) : Memory :=
  if b = 0 then m.erase a else (m.erase a).insert a b

/-- `MemWrite(FRM:a, n, s)`, lowest offset first (R12). -/
def Memory.writeBytes : Memory → Nat → List Byte → Memory
  | m, _, [] => m
  | m, a, b :: bs => Memory.writeBytes (m.write a b) (a + 1) bs

/-- A list of (offset, byte) writes in order (R184). -/
def Memory.writeAll : Memory → List (Nat × Byte) → Memory
  | m, [] => m
  | m, (a, b) :: ws => Memory.writeAll (m.write a b) ws

/-- The last byte a list of writes leaves at an offset: later writes win (R186). -/
def lastWrite (ws : List (Nat × Byte)) (a : Nat) : Option Byte :=
  (ws.reverse.find? fun w => w.1 == a).map Prod.snd

/-- `MemRead(FRM:a, n)`, lowest offset first (R12). -/
def Memory.slice (m : Memory) (a n : Nat) : List Byte := (List.range n).map fun k => m.read (a + k)

/-- Offsets rise from `lo`, lie below 64, and no listed byte is `0x00`. -/
def Memory.wfFrom : Nat → Memory → Bool
  | _, [] => true
  | lo, (a, b) :: m => decide (lo ≤ a) && decide (a < 64) && b != 0 && Memory.wfFrom (a + 1) m

/-- The canonical form of FRM. -/
def Memory.wf (m : Memory) : Bool := Memory.wfFrom 0 m

/-! ### Parameters (R8) -/

/-- `MOTION_BASE`, 3 to 28 (R8, R88). -/
def motionBase : Nat := 3 + Config.motionIndex.val

/-- An `AUX` write is admissible: in the payload and outside the motion region at `base` (R184). -/
def auxAdmissible (base : Nat) (w : Nat × Byte) : Bool :=
  decide (3 ≤ w.1) && decide (w.1 ≤ 63) && (decide (w.1 < base) || decide (base + 36 ≤ w.1))

/-- `AUX(cycle)`: any list of admissible writes (R184; log entry 5). -/
def auxWrites (n : Nat) : List (Nat × Byte) := (Config.auxDraw n).filter (auxAdmissible motionBase)

/-! ### The frame builder (R151) -/

/-- `build(c, id, p)` for `len(p) <= 61` (R151). -/
def build (c id : Byte) (p : List Byte) : List Byte :=
  [0x80, c, id] ++ p ++ List.replicate (61 - p.length) 0

/-! ### Ending an operation (R13, R200) -/

/-- An operation ends with an outcome on `status`; the result ports hold no value unless the outcome carries one
(R21: valid only with `OK` from the operation that gives them). Every `raise` and every refusal code goes through here:
nothing is saved and control goes nowhere (R209). Log entries 7 and 8. -/
def finish (st : Status) (s : State) : State := { s with status := some st, samples := none, frame := none }

/-- DECODE's `OK` with its samples (R110). -/
def finishSamples (r : Samples) (s : State) : State :=
  { s with status := some .ok, samples := some r, frame := none }

/-- BUILD's `OK` with its frame (R150). -/
def finishFrame (f : List Byte) (s : State) : State :=
  { s with status := some .ok, samples := none, frame := some f }

/-! ### Emitting (R13, R31, R156) -/

/-- A frame built with `CTR` goes to `tx` and `CTR` advances, one indivisible step (R65, R156, R183). -/
def stamp (sink : Sink) (id : Byte) (p : List Byte) (s : State) : State :=
  { s with tx := s.tx ++ [⟨sink, build s.ctr id p⟩], ctr := s.ctr + 1 }

/-- The transport's answer to the emit `k` emits from now: the one given on the port `ok`, else a free value (R31, U1;
log entry 6). -/
def answer (s : State) (k : Nat) : Bool :=
  match s.oks[k]? with
  | some b => b
  | none => Config.transportOk (s.draws + (k - s.oks.length))

/-- The next answer has been used. -/
def dropAnswer (s : State) : State :=
  match s.oks with
  | [] => { s with draws := s.draws + 1 }
  | _ :: bs => { s with oks := bs }

/-- The state after `SEND(id, p)` with `len(p) <= 61`; its `ok` is `answer s 0` (R155). -/
def sent (id : Byte) (p : List Byte) (s : State) : State := dropAnswer (stamp .transport id p s)

/-- `READY <- b` (R27). -/
def setReady (b : Bool) (s : State) : State := { s with ready := b }

/-- `FRM <- m` (R26). -/
def setFrm (m : Memory) (s : State) : State := { s with frm := m }

/-- One pulse on `log` (R163). -/
def pulse (s : State) : State := { s with log := s.log + 1 }

/-- The ring advances: `SLOT <- (SLOT + 1) mod 3`, and the cycle number with it (R24, R181). -/
def advance (s : State) : State := { s with slot := s.slot + 1, cycle := s.cycle + 1 }

/-! ### The host's events (R35, R62) -/

/-- The next event and the state with it taken; none when the host has issued nothing. -/
def fetch (s : State) : Option (HostEvent × State) :=
  match s.pending with
  | [] => none
  | e :: es => some (e, { s with pending := es })

/-- Nothing issued: the block waits (R22, R241). -/
def idle (s : State) : State := s

/-- Session creation: the reset event (R35, R240). The host's script and the transport's answers are not state of the
block and stay (log entry 16). -/
def newSession (s : State) : State :=
  { State.reset with pending := s.pending, oks := s.oks, draws := s.draws }

/-- What a word that is no instruction of the table gives: `BAD_OP` for `op` 7 to 15 (R97), `BAD_OPERAND` for a report
that is too long (R97), `NOT_TELEMETRY` for a report that is not sample-bearing (R82, R112); a buffer that is no frame
has no meaning in the spec (log entries 8 and 12). -/
def reject (e : DecodeError) (s : State) : Host.Outcome State Fault Refusal :=
  match e with
  | .badOp => .next (finish .badOp s)
  | .reportTooLong => .next (finish .badOperand s)
  | .notSampleBearing => .next (finish .notTelemetry s)
  | .noFrameFormat => .refused .noWireFormat

end Sys2Proof.Machine
end

