-- ==== Sys2Proof/Machine/Operands.lean ====
section
/-! DEFINITION. The operand forms: fields, samples, slots, and the pure functions `decode` and `enc_slot` of R14. -/

namespace Sys2Proof.Machine

/-! ### Reading (R12, R50, R85) -/

/-- `sext_16(u)` for `0 <= u <= 65535` (R10). -/
def sext16 (u : Nat) : Int := if u < 32768 then (u : Int) else (u : Int) - 65536

/-- `rd16le(RX:a)` (R12, R85). Callers have checked that offsets `a` and `a + 1` exist (R54). -/
def rd16le (rx : List Byte) (a : Nat) : Int := sext16 ((rx.getD a 0).toNat + 256 * (rx.getD (a + 1) 0).toNat)

/-- The 12 bytes at `base` read as format S12 (R83, R84). -/
def readSample (rx : List Byte) (base : Nat) : Sample :=
  { ax := rd16le rx base, ay := rd16le rx (base + 2), az := rd16le rx (base + 4),
    gx := rd16le rx (base + 6), gy := rd16le rx (base + 8), gz := rd16le rx (base + 10) }

/-- Sample `i` of a report, if its last byte, offset `13 + 12 i + 11`, exists (R113, R114). -/
def sampleAt (rx : List Byte) (i : Nat) : Option Sample :=
  if 13 + 12 * i + 12 ≤ rx.length then some (readSample rx (13 + 12 * i)) else none

/-- What `decode` answers (R111). -/
inductive DecodeResult where
  | samples (r : Samples)
  | notTelemetry
  | malformed (i : Fin 3)
  deriving DecidableEq, Repr

/-- The samples in index order, the lowest failing index named, all or none (R113, R208). -/
def decodeSamples (rx : List Byte) : DecodeResult :=
  match sampleAt rx 0 with
  | none => .malformed 0
  | some s0 =>
    match sampleAt rx 1 with
    | none => .malformed 1
    | some s1 =>
      match sampleAt rx 2 with
      | none => .malformed 2
      | some s2 => .samples ⟨s0, s1, s2⟩

/-- `decode(rx, L)` (R111). The bytes that exist are the first `L` of those delivered (U9; log entry 11). -/
def decodeRx (rx : List Byte) (len : Nat) : DecodeResult :=
  if len < 49 then .notTelemetry
  else if (rx.take len)[0]? ≠ some 0x30 then .notTelemetry
  else decodeSamples (rx.take len)

/-! ### Writing (R12, R90, R133) -/

/-- The two bytes of a field: `v` modulo 65536, low byte first (R133). -/
def le16 (v : Int) : List Byte :=
  let u := (v % 65536).toNat
  [BitVec.ofNat 8 (u % 256), BitVec.ofNat 8 (u / 256 % 256)]

/-- The 12 bytes of a sample, field `j` at offset `2 j` (R83, R84). -/
def sampleBytes (v : Sample) : List Byte :=
  le16 v.ax ++ le16 v.ay ++ le16 v.az ++ le16 v.gx ++ le16 v.gy ++ le16 v.gz

/-- `enc_slot(f, slot, v)` with the motion region at `base` (R131). -/
def encSlot (base : Nat) (f : Memory) (slot : Nat) (v : Sample) : Memory :=
  f.writeBytes (base + 12 * slot) (sampleBytes v)

end Sys2Proof.Machine
end

