-- ==== Sys2Proof/Machine/Flags.lean ====
section
/-! DEFINITION. The outcome codes. The block has no condition codes (R23); its one flag, READY, is written by
`setReady` and read by nothing. -/

namespace Sys2Proof.Machine

/-- The code of an outcome on the port `status` (R201). -/
def Status.code : Status → Nat
  | .ok => 0
  | .notTelemetry => 1
  | .malformedReport _ => 2
  | .ioError => 3
  | .handshakeFailed _ => 4
  | .badOperand => 5
  | .badOp => 6

/-- The outcome of a send that the host issued itself (R155, R204). -/
def sendStatus (ok : Bool) : Status := if ok then .ok else .ioError

end Sys2Proof.Machine
end

