-- ==== Sys2Proof/Machine/ReportDecoder.lean ====
section
/-! DEFINITION. DECODE (40_decode.md) and the inbound wire pattern RPT.STD. -/

namespace Sys2Proof.Machine

/-- The end of a DECODE: samples on `OK`, else the named outcome; nothing but the ports changes (R110, R115). -/
def finishDecode (r : DecodeResult) (s : State) : State :=
  match r with
  | .samples x => finishSamples x s
  | .notTelemetry => finish .notTelemetry s
  | .malformed i => finish (.malformedReport i) s

/-- DECODE `rx`, `L` (R110); `L > 64` is refused first (R97, R208). -/
def execDecode (rx : List Byte) (len : Nat) (s : State) : Host.Outcome State Fault Refusal :=
  if 64 < len then .next (finish .badOperand s) else .next (finishDecode (decodeRx rx len) s)

/-- RPT.STD: the report with tag `0x30` is given to `decode` (R81, R111; log entry 9). -/
def execRptStd (rest : List Byte) (s : State) : Host.Outcome State Fault Refusal :=
  if 63 < rest.length then .next (finish .badOperand s)
  else .next (finishDecode (decodeRx (0x30 :: rest) (rest.length + 1)) s)

end Sys2Proof.Machine
end

