-- ==== Sys2Proof/Machine/SlotEncoder.lean ====
section
/-! DEFINITION. ENCSLOT (41_encode.md). -/

namespace Sys2Proof.Machine

/-- ENCSLOT `slot`, `v[0..5]` (R130); `slot = 3` is refused with `FRM` unchanged (R97). -/
def execEncslot (slot : BitVec 2) (v : Sample) (s : State) : Host.Outcome State Fault Refusal :=
  if slot = 3 then .next (finish .badOperand s)
  else .next (finish .ok (setFrm (encSlot motionBase s.frm slot.toNat v) s))

end Sys2Proof.Machine
end

