-- ==== Sys2Proof/Machine/PacketFramer.lean ====
section
/-! DEFINITION. BUILD, SEND, ENABLE, DISABLE (42_framer.md) and the outbound wire patterns of a control frame. -/

namespace Sys2Proof.Machine

/-- `build` on the port `frame`; a payload over 61 bytes is refused (R150, R153). -/
def buildOn (c id : Byte) (p : List Byte) (s : State) : State :=
  if 61 < p.length then finish .badOperand s else finishFrame (build c id p) s

/-- BUILD `c`, `id`, `p` (R150). -/
def execBuild (c id : Byte) (p : List Byte) (s : State) : Host.Outcome State Fault Refusal :=
  .next (buildOn c id p s)

/-- SEND `id`, `p` (R155): refused before anything is sent when the payload does not fit (R153). -/
def execSend (id : Byte) (p : List Byte) (s : State) : Host.Outcome State Fault Refusal :=
  if 61 < p.length then .next (finish .badOperand s)
  else .next (finish (sendStatus (answer s 0)) (sent id p s))

/-- The state after ENABLE (R159): the second send only when the first succeeded; the settle delay between them is an
ordering and nothing else (R161; log entry 15). -/
def enabled (s : State) : State :=
  let s1 := sent 0x03 [0x30] s
  if answer s 0 then
    let s2 := sent 0x40 [0x01] s1
    if answer s1 0 then finish .ok (setReady true s2)
    else finish (.handshakeFailed .second) (setReady false s2)
  else finish (.handshakeFailed .first) (setReady false s1)

/-- ENABLE (R159). -/
def execEnable (s : State) : Host.Outcome State Fault Refusal := .next (enabled s)

/-- The state after DISABLE (R163): best effort, a failed write pulses `log`. -/
def disabled (s : State) : State :=
  let s1 := sent 0x40 [0x00] s
  finish .ok (setReady false (if answer s 0 then s1 else pulse s1))

/-- DISABLE (R163). -/
def execDisable (s : State) : Host.Outcome State Fault Refusal := .next (disabled s)

/-- FRAME: the generic outbound frame, built from its counter, id and payload (R86, R151; log entry 9). -/
def execFrame (c id : Byte) (p : List Byte) (s : State) : Host.Outcome State Fault Refusal :=
  .next (buildOn c id p s)

/-- FRAME.SET_MODE_STD: `80 c 03 30` and zeros (R91; log entry 9). -/
def execFrameSetModeStd (c : Byte) (s : State) : Host.Outcome State Fault Refusal :=
  .next (buildOn c 0x03 [0x30] s)

/-- FRAME.TELEMETRY_ON: `80 c 40 01` and zeros (R91; log entry 9). -/
def execFrameTelemetryOn (c : Byte) (s : State) : Host.Outcome State Fault Refusal :=
  .next (buildOn c 0x40 [0x01] s)

/-- FRAME.TELEMETRY_OFF: `80 c 40 00` and zeros (R91; log entry 9). -/
def execFrameTelemetryOff (c : Byte) (s : State) : Host.Outcome State Fault Refusal :=
  .next (buildOn c 0x40 [0x00] s)

end Sys2Proof.Machine
end

