-- ==== Sys2Proof/Machine/SynthesisRing.lean ====
section
/-! DEFINITION. SYNCYC (43_synthesis.md) and the wire pattern of a dispatched frame. -/

namespace Sys2Proof.Machine

/-- A dispatch (R183): the payload of `FRM` is framed with `CTR` and `SYNTH_ID` and goes to the pairing layer, and a
fresh frame starts. -/
def dispatch (synthId : Byte) (s : State) : State :=
  setFrm [] (stamp .pairing synthId (s.frm.slice 3 61) s)

/-- One cycle (R180) at given parameters: `AUX` writes, slot write, dispatch in slot 2, ring advance. -/
def cycled (base : Nat) (synthId : Byte) (aux : List (Nat × Byte)) (v : Sample) (s : State) : State :=
  let s1 := setFrm (encSlot base (s.frm.writeAll aux) s.slot.val v) s
  finish .ok (advance (if s.slot = 2 then dispatch synthId s1 else s1))

/-- SYNCYC `v[0..5]` (R180). -/
def execSyncyc (v : Sample) (s : State) : Host.Outcome State Fault Refusal :=
  .next (cycled motionBase Config.synthId (auxWrites s.cycle) v s)

/-- FRAME.SYNTH: the frame of a dispatch, built from its counter, id and payload (R92, R151; log entry 9). -/
def execFrameSynth (c id : Byte) (p : List Byte) (s : State) : Host.Outcome State Fault Refusal :=
  .next (buildOn c id p s)

end Sys2Proof.Machine
end

