-- ==== Sys2Proof/Machine/Dispatch.lean ====
section
/-! DEFINITION. One arm per instruction. -/

namespace Sys2Proof.Machine

def exec (i : Instr) (s : State) : Host.Outcome State Fault Refusal :=
  match i with
  | .decode rx len => Sys2Proof.Machine.execDecode rx len s
  | .encslot slot v => Sys2Proof.Machine.execEncslot slot v s
  | .build c id p => Sys2Proof.Machine.execBuild c id p s
  | .send id p => Sys2Proof.Machine.execSend id p s
  | .enable => Sys2Proof.Machine.execEnable s
  | .disable => Sys2Proof.Machine.execDisable s
  | .syncyc v => Sys2Proof.Machine.execSyncyc v s
  | .rptStd rest => Sys2Proof.Machine.execRptStd rest s
  | .frame c id p => Sys2Proof.Machine.execFrame c id p s
  | .frameSetModeStd c => Sys2Proof.Machine.execFrameSetModeStd c s
  | .frameTelemetryOn c => Sys2Proof.Machine.execFrameTelemetryOn c s
  | .frameTelemetryOff c => Sys2Proof.Machine.execFrameTelemetryOff c s
  | .frameSynth c id p => Sys2Proof.Machine.execFrameSynth c id p s

end Sys2Proof.Machine
end

