-- ==== Sys2Proof/Machine/Step.lean ====
section
/-! DEFINITION. One step: take the host's next event. -/

namespace Sys2Proof.Machine

/-- One step: wait if nothing is issued, create a session, or run the operation issued to its outcome (R22, R56, R62). -/
def step (s : State) : Host.Outcome State Fault Refusal :=
  match fetch s with
  | none => .next (idle s)
  | some (.newSession, s1) => .next (newSession s1)
  | some (.issue w, s1) =>
    match decode w with
    | .ok i => exec i s1
    | .error e => reject e s1

/-- The state with the word of a table row issued next (log entry 2). -/
def State.withFetchWord (s : State) (nbits w : Nat) : State :=
  { s with pending := .issue (tableWord nbits w) :: s.pending }

end Sys2Proof.Machine
end

