-- ==== Sys2Proof/Safety.lean ====
section
/-! DEFINITION. What claims mean by a sound state of the block. -/

namespace Sys2Proof.Machine

/-- FRM is in its canonical form, inside its 64 bytes (R26, R54). -/
def FrmCanonical (s : State) : Prop := s.frm.wf = true

/-- The ring is in step with the cycle number (R181), and one frame has gone to the pairing layer per three cycles
(R185). -/
def RingInStep (s : State) : Prop :=
  s.slot.val = s.cycle % 3 ∧ (s.tx.filter fun e => e.sink == .pairing).length = s.cycle / 3

/-- The counter law (R157): frame `n` of the session is 64 bytes, marker first, with counter byte `n mod 256`, and `CTR`
is the next number. -/
def CountersConsecutive (s : State) : Prop :=
  s.ctr = BitVec.ofNat 8 s.tx.length ∧
    ∀ (n : Nat) (e : Emission), s.tx[n]? = some e →
      e.bytes.length = 64 ∧ e.bytes[0]? = some 0x80 ∧ e.bytes[1]? = some (BitVec.ofNat 8 n)

/-- What every reachable state satisfies. -/
def Inv (s : State) : Prop := FrmCanonical s ∧ RingInStep s ∧ CountersConsecutive s

end Sys2Proof.Machine
end

