-- ==== Sys2Proof/Certificates/Slice0/Obligations.lean ====
section
/-! DEFINITION. The statements for the provers. A next state is written out as the old state with the fields that
change, so each result statement is its own frame statement: every field not named, `FRM` with every byte of it
included, is as before. Where a statement formalises a rule as it stands, the result ports the rule does not speak of
are left open (`samples := t.samples`); what the model puts on them is stated by itself
(PortsCarryOnlyValidResults). -/

namespace Sys2Proof.Claims

open Sys2Proof.Machine

/-- The two bytes at `a`, low byte first, are the two's complement pattern of `x` (R50, R85). -/
def FieldAt (bs : List Byte) (a : Nat) (x : Int) : Prop :=
  ∃ lo hi : Byte, bs[a]? = some lo ∧ bs[a + 1]? = some hi ∧ x = (hi ++ lo).toInt

/-- The six fields of a sample stand at `base`, field `j` at `base + 2 j` (R83, R84). -/
def SampleAt (bs : List Byte) (base : Nat) (v : Sample) : Prop :=
  ∀ (j : Nat) (x : Int), v.toList[j]? = some x → FieldAt bs (base + 2 * j) x

/-- Reading by `get`, the six operands stand at `base` as R133 splits them: low byte `v mod 256`, high byte
`floor(v / 256) mod 256`. -/
def Holds (get : Nat → Byte) (base : Nat) (v : Sample) : Prop :=
  ∀ (j : Nat) (x : Int), v.toList[j]? = some x →
    get (base + 2 * j) = BitVec.ofInt 8 x ∧ get (base + 2 * j + 1) = BitVec.ofInt 8 (x / 256)

/-- The layout of R86: marker, counter, id, payload, zero padding, 64 bytes. -/
def IsFrame (f : List Byte) (c id : Byte) (p : List Byte) : Prop :=
  f.length = 64 ∧ f[0]? = some 0x80 ∧ f[1]? = some c ∧ f[2]? = some id ∧
    (∀ k < p.length, f[3 + k]? = p[k]?) ∧ ∀ a, 3 + p.length ≤ a → a < 64 → f[a]? = some 0

/-- The samples of a report in frame order. -/
def samplesList (r : Samples) : List Sample := [r.s0, r.s1, r.s2]

/-- Offset `a` lies in slot `k` of the motion region (R88). -/
def InSlot (k a : Nat) : Prop := motionBase + 12 * k ≤ a ∧ a < motionBase + 12 * k + 12

/-- An instruction that sends or may send (R25). -/
def Sends (i : Instr) : Prop :=
  (∃ id p, i = .send id p) ∨ i = .enable ∨ i = .disable ∨ ∃ v, i = .syncyc v

end Sys2Proof.Claims

open Sys2Proof Sys2Proof.Machine Sys2Proof.Claims

/-! ### Words, decoding, stepping -/

/-- Decoding what `encode` writes for a well-formed instruction gives it back (R81, R86, R91, R95).
That wire rows are words, and their sink tag, are the model's choice (log entries 9 and 10). -/
def Obligations.DecodeEncodeRoundTrip : Prop :=
  ∀ i : Instr, i.wellFormed = true → decode (encode i) = .ok i

/-- A report or frame buffer has one reading, and encoding that reading gives the buffer; a command port value is
refused exactly for `op` 7 to 15 (R95, R96, R97). The sink tag of a buffer is the model's choice (log entry 10). -/
def Obligations.BuffersHaveOneReading : Prop :=
  (∀ (w : Word) (i : Instr), decode w = .ok i → (∀ c, w ≠ .command c) → encode i = w ∧ i.wellFormed = true) ∧
    ∀ c : CommandWord, decode (.command c) = .error .badOp ↔ 7 ≤ c.op.toNat

/-- Words written out from R95, R81, R91 and R92 decode to the instructions they stand for (log entries
9 and 10 for the wire rows). -/
def Obligations.SpecWordsDecode : Prop :=
  decode (.command { CommandWord.ofOp 0b0000#4 with rx := [0x21], len := 1 }) = .ok (.decode [0x21] 1) ∧
  decode (.command { CommandWord.ofOp 0b0001#4 with slot := 2, v := ⟨1, 2, 3, 4, 5, 6⟩ })
    = .ok (.encslot 2 ⟨1, 2, 3, 4, 5, 6⟩) ∧
  decode (.command { CommandWord.ofOp 0b0010#4 with c := 7, id := 3, p := [0x30] }) = .ok (.build 7 3 [0x30]) ∧
  decode (.command { CommandWord.ofOp 0b0011#4 with id := 0x40, p := [0x01] }) = .ok (.send 0x40 [0x01]) ∧
  decode (.command (CommandWord.ofOp 0b0100#4)) = .ok .enable ∧
  decode (.command (CommandWord.ofOp 0b0101#4)) = .ok .disable ∧
  decode (.command { CommandWord.ofOp 0b0110#4 with v := ⟨1, 2, 3, 4, 5, 6⟩ }) = .ok (.syncyc ⟨1, 2, 3, 4, 5, 6⟩) ∧
  decode (.report (0b00110000#8 :: List.replicate 48 0)) = .ok (.rptStd (List.replicate 48 0)) ∧
  decode (.frame .transport ([0b10000000#8, 9, 0x03, 0x30] ++ List.replicate 60 0)) = .ok (.frameSetModeStd 9) ∧
  decode (.frame .transport ([0b10000000#8, 9, 0x40, 0x01] ++ List.replicate 60 0)) = .ok (.frameTelemetryOn 9) ∧
  decode (.frame .transport ([0b10000000#8, 9, 0x40, 0x00] ++ List.replicate 60 0)) = .ok (.frameTelemetryOff 9) ∧
  decode (.frame .transport ([0b10000000#8, 9, 0x11, 0x22] ++ List.replicate 60 0))
    = .ok (.frame 9 0x11 (0x22 :: List.replicate 60 0)) ∧
  decode (.frame .pairing ([0b10000000#8, 9, 0x11, 0x22] ++ List.replicate 60 0))
    = .ok (.frameSynth 9 0x11 (0x22 :: List.replicate 60 0))

/-- A step takes the next word from the host's script and runs the instruction it decodes to, to its outcome; with
nothing issued it waits (R22, R62, R241; log entry 2). -/
def Obligations.StepRunsTheDecodedInstruction : Prop :=
  (∀ (s : State) (w : Word) (es : List HostEvent) (i : Instr),
    s.pending = .issue w :: es → decode w = .ok i → step s = exec i { s with pending := es }) ∧
  ∀ s : State, s.pending = [] → step s = .next s

/-- `op` 7 to 15 gives `BAD_OP` and changes no state of the block (R97, R205; that a code is a next state, and the
cleared ports, are log entries 8 and 7). -/
def Obligations.ReservedOpChangesNothing : Prop :=
  ∀ (s : State) (c : CommandWord) (es : List HostEvent), s.pending = .issue (.command c) :: es → 7 ≤ c.op.toNat →
    step s = .next { s with pending := es, status := some .badOp, samples := none, frame := none }

/-- A report that is not sample-bearing is ignored without error, and one that is too long is refused (R82, R97; log
entries 7, 8 and 12). -/
def Obligations.UnusableReportIsIgnored : Prop :=
  ∀ (s : State) (rx : List Byte) (es : List HostEvent), s.pending = .issue (.report rx) :: es →
    (rx.length ≤ 64 → (rx.length < 49 ∨ rx[0]? ≠ some 0x30) →
      step s = .next { s with pending := es, status := some .notTelemetry, samples := none, frame := none }) ∧
    (64 < rx.length →
      step s = .next { s with pending := es, status := some .badOperand, samples := none, frame := none })

/-- The block never traps (R200): no step faults, and the only thing refused is a buffer presented as an outbound frame
that is not 64 bytes with the marker (log entry 12). -/
def Obligations.OnlyAFormlessFrameStops : Prop :=
  ∀ s : State, (∀ r, step s ≠ .fault r) ∧
    ∀ r, step s = .refused r ↔ r = .noWireFormat ∧ ∃ sink bytes es,
      s.pending = .issue (.frame sink bytes) :: es ∧ ¬(bytes.length = 64 ∧ bytes[0]? = some 0x80)

/-! ### Reset and sessions -/

/-- After reset `CTR`, `SLOT`, `READY` are 0, every byte of `FRM` is 0, the ports hold nothing and nothing has been
emitted (R34, R240; the values are the spec's decisions D13, D14, D15, D19; the log count is log entry 7). -/
def Obligations.ResetLeavesZeros : Prop :=
  State.reset.ctr = 0 ∧ State.reset.slot = 0 ∧ State.reset.ready = false ∧
  (∀ a < 64, State.reset.frm.read a = 0) ∧
  State.reset.status = none ∧ State.reset.samples = none ∧ State.reset.frame = none ∧
  State.reset.tx = [] ∧ State.reset.log = 0

/-- A new session is a reset: nothing of `CTR`, `SLOT`, `READY`, `FRM` survives (R35, R240; that it is an event of the host's
list is log entry 16). -/
def Obligations.NewSessionIsReset : Prop :=
  ∀ (s : State) (es : List HostEvent), s.pending = .newSession :: es →
    step s = .next { State.reset with pending := es, oks := s.oks, draws := s.draws }

/-! ### Invariants -/

/-- The invariant holds after reset (the reset values are log entry 3). -/
def Obligations.ResetMeetsInvariant : Prop := Inv State.reset

/-- Every step keeps the canonical form of `FRM`, the ring law and the counter law (R157, R181, R185; the cycle
number and the history of frames are log entries 5 and 7). -/
def Obligations.StepKeepsInvariant : Prop := ∀ s t : State, Inv s → step s = .next t → Inv t

/-- Every instruction, in any state: the frames it emits are appended to those before, each is 64 bytes with the marker,
their counters run on from `CTR` without a gap, and `CTR` ends at the next number (R157; `tx` as a history is log entry
7). -/
def Obligations.EmittedCountersRunOn : Prop :=
  ∀ (i : Instr) (s t : State), exec i s = .next t →
    ∃ fs : List Emission, t.tx = s.tx ++ fs ∧ t.ctr = s.ctr + BitVec.ofNat 8 fs.length ∧
      ∀ (n : Nat) (e : Emission), fs[n]? = some e →
        e.bytes.length = 64 ∧ e.bytes[0]? = some 0x80 ∧ e.bytes[1]? = some (s.ctr + BitVec.ofNat 8 n)

/-- Who writes what (R28): `CTR` and `tx` only a sender, `SLOT` only SYNCYC, `READY` only ENABLE and DISABLE, `FRM` only
ENCSLOT and SYNCYC, `log` only DISABLE. That wire rows write none of them is the model's choice (log entry 9). -/
def Obligations.WritersOfEachStateItem : Prop :=
  ∀ (i : Instr) (s t : State), exec i s = .next t →
    (¬ Sends i → t.ctr = s.ctr ∧ t.tx = s.tx) ∧
    ((∀ v, i ≠ .syncyc v) → t.slot = s.slot) ∧
    (i ≠ .enable → i ≠ .disable → t.ready = s.ready) ∧
    ((∀ k v, i ≠ .encslot k v) → (∀ v, i ≠ .syncyc v) → ∀ a, t.frm.read a = s.frm.read a) ∧
    (i ≠ .disable → t.log = s.log) ∧ t.pending = s.pending

/-- A result port holds a value only after the operation that gives it, ended in `OK`: samples after DECODE or the row
RPT.STD, a frame after BUILD or a FRAME row (R21). That the ports are cleared otherwise is the model's choice (log entry
7), and that wire rows use them too (log entry 9). -/
def Obligations.PortsCarryOnlyValidResults : Prop :=
  ∀ (i : Instr) (s t : State), exec i s = .next t → t.status ≠ none ∧
    (t.samples ≠ none → t.status = some .ok ∧ ((∃ rx len, i = .decode rx len) ∨ ∃ rest, i = .rptStd rest)) ∧
    (t.frame ≠ none → t.status = some .ok ∧
      ((∃ c id p, i = .build c id p) ∨ (∃ c id p, i = .frame c id p) ∨ (∃ c id p, i = .frameSynth c id p) ∨
        ∃ c, i = .frameSetModeStd c ∨ i = .frameTelemetryOn c ∨ i = .frameTelemetryOff c))

/-- No operation reads `READY`: with another value of it every instruction does the same to everything else (R27). -/
def Obligations.ReadyIsReadByNothing : Prop :=
  ∀ (i : Instr) (s t : State) (b : Bool), exec i s = .next t →
    ∃ c, exec i { s with ready := b } = .next { t with ready := c }

/-! ### DECODE -/

/-- DECODE of a sample-bearing report delivers its eighteen lanes, lane `(i, j)` the two bytes at offset
`13 + 12 i + 2 j` read low byte first as two's complement, and changes nothing else; a call that does not end in `OK`
delivers none (R117). -/
def Obligations.DecodeDeliversThreeSamples : Prop :=
  (∀ (rx : List Byte) (len : Nat) (s : State), 49 ≤ len → len ≤ 64 → len ≤ rx.length → rx[0]? = some 0x30 →
    ∃ (r : Samples) (t : State), exec (.decode rx len) s = .next t ∧
      t = { s with status := some .ok, samples := some r, frame := t.frame } ∧
      SampleAt rx 13 r.s0 ∧ SampleAt rx 25 r.s1 ∧ SampleAt rx 37 r.s2) ∧
  ∀ (rx : List Byte) (len : Nat) (s t : State), exec (.decode rx len) s = .next t → t.status ≠ some .ok →
    t.samples = none

/-- DECODE answers `NOT_TELEMETRY` exactly when the report's stated length is below 49 or its tag is not `0x30`, and then
delivers no samples and changes nothing else (R111, R112). What it says of a stated length longer than the bytes delivered
(no byte at all is `NOT_TELEMETRY`, a tag `0x30` with too few bytes is not) is the model's reading, log entry 11
(DEDUCED from R113), and no rule of the spec. -/
def Obligations.DecodeIgnoresNonTelemetry : Prop :=
  ∀ (rx : List Byte) (len : Nat) (s : State), len ≤ 64 →
    ∃ t, exec (.decode rx len) s = .next t ∧
      (t.status = some .notTelemetry ↔ len < 49 ∨ rx[0]? ≠ some 0x30) ∧
      (t.status = some .notTelemetry →
        t = { s with status := some .notTelemetry, samples := none, frame := t.frame })

/-- DECODE of a report whose stated length is longer than the bytes delivered names the first sample that does not
exist, and delivers none (R113, R208; a false length is read so by log entry 11, the ports are log entry 7). -/
def Obligations.DecodeNamesFirstMissingSample : Prop :=
  ∀ (rx : List Byte) (len : Nat) (i : Fin 3) (s : State), 49 ≤ len → len ≤ 64 → rx[0]? = some 0x30 →
    rx.length < 25 + 12 * i.val → (∀ k < i.val, 25 + 12 * k ≤ rx.length) →
    exec (.decode rx len) s =
      .next { s with status := some (.malformedReport i), samples := none, frame := none }

/-- DECODE reads the tag and the motion bytes and nothing else: bytes 1 to 12 and 49 on never matter (R116). -/
def Obligations.DecodeReadsOnlyTagAndMotion : Prop :=
  ∀ (rx rx' : List Byte) (len : Nat) (s : State), rx.length = rx'.length → rx[0]? = rx'[0]? →
    (∀ a, 13 ≤ a → a < 49 → rx[a]? = rx'[a]?) → exec (.decode rx len) s = exec (.decode rx' len) s

/-- DECODE commutes with every operation: the operation after it gives what it would have given without it, and DECODE
after an operation answers what it would have answered before it (R62 (c)). It rests on every operation setting all
result ports (log entry 7) and, for wire rows, on log entry 9. -/
def Obligations.DecodeCommutes : Prop :=
  ∀ (rx : List Byte) (len : Nat) (i : Instr) (s t u : State),
    exec (.decode rx len) s = .next t → exec i s = .next u →
    exec i t = .next u ∧
      ∃ w, exec (.decode rx len) u = .next w ∧ w.status = t.status ∧ w.samples = t.samples

/-! ### ENCSLOT -/

/-- ENCSLOT writes its six operands, each modulo 65536 and low byte first, at `MOTION_BASE + 12 slot + 2 j`, leaves every
other byte of `FRM` as it was, and changes nothing else (R130 to R133). -/
def Obligations.EncslotWritesItsSlotOnly : Prop :=
  ∀ (slot : BitVec 2) (v : Sample) (s : State), slot ≠ 3 →
    ∃ t : State, exec (.encslot slot v) s = .next t ∧
      t = { s with frm := t.frm, status := some .ok, samples := t.samples, frame := t.frame } ∧
      Holds t.frm.read (motionBase + 12 * slot.toNat) v ∧
      ∀ a, ¬ InSlot slot.toNat a → t.frm.read a = s.frm.read a

/-- What ENCSLOT wrote, copied into any sample position of a report with tag `0x30`, DECODE gives back: each field
reduced to 16 bits signed, so the operand itself when it is in range (R137). -/
def Obligations.SlotRoundTripsThroughDecode : Prop :=
  ∀ (slot : BitVec 2) (v : Sample) (s t : State) (rx : List Byte) (len i : Nat) (s' : State),
    slot ≠ 3 → exec (.encslot slot v) s = .next t →
    49 ≤ len → len ≤ 64 → len ≤ rx.length → rx[0]? = some 0x30 → i < 3 →
    (∀ k < 12, rx[13 + 12 * i + k]? = some (t.frm.read (motionBase + 12 * slot.toNat + k))) →
    ∃ (r : Samples) (w : Sample) (u : State),
      exec (.decode rx len) s' = .next u ∧ u.status = some .ok ∧ u.samples = some r ∧
      (samplesList r)[i]? = some w ∧
      ∀ (j : Nat) (x : Int), v.toList[j]? = some x →
        ∃ y, w.toList[j]? = some y ∧ y = (BitVec.ofInt 16 x).toInt ∧ (-32768 ≤ x → x ≤ 32767 → y = x)

/-- Operands congruent modulo 65536 give the same result, in ENCSLOT and in SYNCYC (R134 (a)). -/
def Obligations.OperandsMatterModulo65536 : Prop :=
  ∀ (v w : Sample) (s : State), List.Forall₂ (fun x y => x % 65536 = y % 65536) v.toList w.toList →
    (∀ slot, exec (.encslot slot v) s = exec (.encslot slot w) s) ∧ exec (.syncyc v) s = exec (.syncyc w) s

/-- A slot encoded twice holds the second operands and no trace of the first, so an ENCSLOT repeated changes nothing
more (R57, R136; `FrmCanonical` is an invariant, see StepKeepsInvariant). -/
def Obligations.SecondEncslotStands : Prop :=
  ∀ (slot : BitVec 2) (v w : Sample) (s t : State), FrmCanonical s →
    exec (.encslot slot v) s = .next t → exec (.encslot slot w) t = exec (.encslot slot w) s

/-! ### Refused operands -/

/-- Operands outside their ranges give `BAD_OPERAND`, with no change of state, nothing emitted and, for SEND, the counter
not advanced (R97, R153, R205; that a code is a next state, and the cleared ports, are log entries 8 and 7). -/
def Obligations.BadOperandsChangeNothing : Prop :=
  ∀ (s : State),
    (∀ v, exec (.encslot 3 v) s = .next { s with status := some .badOperand, samples := none, frame := none }) ∧
    (∀ rx len, 64 < len →
      exec (.decode rx len) s = .next { s with status := some .badOperand, samples := none, frame := none }) ∧
    (∀ c id p, 61 < p.length →
      exec (.build c id p) s = .next { s with status := some .badOperand, samples := none, frame := none }) ∧
    ∀ id p, 61 < p.length →
      exec (.send id p) s = .next { s with status := some .badOperand, samples := none, frame := none }

/-! ### BUILD -/

/-- BUILD returns marker, counter, command id, payload and zero padding, 64 bytes, and changes nothing else (R151). -/
def Obligations.BuildGivesItsFrame : Prop :=
  ∀ (c id : Byte) (p : List Byte) (s : State), p.length ≤ 61 →
    ∃ (f : List Byte) (t : State), IsFrame f c id p ∧ exec (.build c id p) s = .next t ∧
      t = { s with status := some .ok, samples := t.samples, frame := some f }

/-- Frames tell counter, id and payload of one length apart, and do not tell a trailing zero byte from padding
(R87, R152). -/
def Obligations.BuildTellsFramesApart : Prop :=
  (∀ (c id c' id' : Byte) (p p' : List Byte) (s : State), p.length ≤ 61 → p.length = p'.length →
    exec (.build c id p) s = exec (.build c' id' p') s → c = c' ∧ id = id' ∧ p = p') ∧
  ∀ (c id : Byte) (p : List Byte) (s : State), p.length ≤ 60 →
    exec (.build c id (p ++ [0])) s = exec (.build c id p) s

/-! ### SEND -/

/-- SEND emits its frame with the counter before the increment, advances `CTR` by one modulo 256 whether or not the
write succeeds, answers `OK` or `IO_ERROR` by the transport's answer, and changes nothing else (R155, R156; the form of
the answers and the cleared ports are log entries 6 and 7). -/
def Obligations.SendStampsAndAdvances : Prop :=
  ∀ (id : Byte) (p : List Byte) (s : State), p.length ≤ 61 →
    ∃ f, IsFrame f s.ctr id p ∧
      exec (.send id p) s =
        .next { s with ctr := s.ctr + 1, tx := s.tx ++ [⟨.transport, f⟩],
                       oks := s.oks.drop 1, draws := s.draws + (1 - s.oks.length),
                       status := some (if answer s 0 then .ok else .ioError), samples := none, frame := none }

/-- The same SEND issued again emits a frame that differs from the first in the counter byte only (R166). -/
def Obligations.RetriedSendDiffersInCounter : Prop :=
  ∀ (id : Byte) (p : List Byte) (s t u : State), p.length ≤ 61 →
    exec (.send id p) s = .next t → exec (.send id p) t = .next u →
    ∃ f g : List Byte, u.tx = s.tx ++ [⟨.transport, f⟩, ⟨.transport, g⟩] ∧
      f[1]? = some s.ctr ∧ g[1]? = some (s.ctr + 1) ∧ f[1]? ≠ g[1]? ∧ ∀ a, a ≠ 1 → f[a]? = g[a]?

/-! ### ENABLE and DISABLE -/

/-- ENABLE by cases: both writes accepted, two frames, `READY` set; the second refused, two frames, `READY` clear; the
first refused, one frame only, `READY` clear (R160). -/
def Obligations.EnableByCases : Prop :=
  ∀ s : State, ∃ (f g : List Byte) (t : State), IsFrame f s.ctr 0x03 [0x30] ∧ IsFrame g (s.ctr + 1) 0x40 [0x01] ∧
    exec .enable s = .next t ∧
    t = { s with ctr := if answer s 0 then s.ctr + 2 else s.ctr + 1,
                 tx := s.tx ++ if answer s 0 then [⟨.transport, f⟩, ⟨.transport, g⟩] else [⟨.transport, f⟩],
                 ready := answer s 0 && answer s 1,
                 status := some (if answer s 0 then if answer s 1 then .ok else .handshakeFailed .second
                   else .handshakeFailed .first),
                 samples := t.samples, frame := t.frame, oks := t.oks, draws := t.draws }

/-- Each send of ENABLE takes one answer of the transport, so the second emit has the next answer; the form of the
answers is the model's choice (log entry 6). -/
def Obligations.EnableTakesOneAnswerPerSend : Prop :=
  ∀ s t : State, exec .enable s = .next t →
    ∀ k, answer t k = answer s (if answer s 0 then k + 2 else k + 1)

/-- DISABLE makes one best-effort send, always answers `OK`, clears `READY`, and pulses `log` exactly when the write
fails (R163; the form of the answers, and the ports, are log entries 6 and 7). -/
def Obligations.DisableIsBestEffort : Prop :=
  ∀ s : State, ∃ f, IsFrame f s.ctr 0x40 [0x00] ∧
    exec .disable s =
      .next { s with ctr := s.ctr + 1, tx := s.tx ++ [⟨.transport, f⟩], ready := false,
                     log := s.log + (if answer s 0 then 0 else 1),
                     oks := s.oks.drop 1, draws := s.draws + (1 - s.oks.length),
                     status := some .ok, samples := none, frame := none }

/-- The exact frames of ENABLE and DISABLE, byte for byte (R162). -/
def Obligations.ExactControlFrames : Prop :=
  ∀ s : State,
    (∃ t, exec .enable s = .next t ∧
      t.tx[s.tx.length]? = some ⟨.transport, [0x80, s.ctr, 0x03, 0x30] ++ List.replicate 60 0⟩ ∧
      t.tx[s.tx.length + 1]? =
        if answer s 0 then some ⟨.transport, [0x80, s.ctr + 1, 0x40, 0x01] ++ List.replicate 60 0⟩ else none) ∧
    ∃ t, exec .disable s = .next t ∧
      t.tx = s.tx ++ [⟨.transport, [0x80, s.ctr, 0x40, 0x00] ++ List.replicate 60 0⟩]

/-! ### SYNCYC -/

/-- SYNCYC in slot 0 or 1 writes its operands into slot `SLOT` and the `AUX` bytes outside the motion region, advances
the ring, and changes nothing else: no frame leaves (R180 to R182, R184; log entries 4, 5 and 7). -/
def Obligations.SyncycFillsItsSlot : Prop :=
  ∀ (v : Sample) (s : State), s.slot ≠ 2 →
    ∃ m : Memory,
      exec (.syncyc v) s =
        .next { s with frm := m, slot := s.slot + 1, cycle := s.cycle + 1,
                       status := some .ok, samples := none, frame := none } ∧
      Holds m.read (motionBase + 12 * s.slot.val) v ∧
      ∀ a, ¬ InSlot s.slot.val a → m.read a = (lastWrite (auxWrites s.cycle) a).getD (s.frm.read a)

/-- SYNCYC in slot 2 writes its slot, then frames bytes 3 to 63 of `FRM` with `CTR` and `SYNTH_ID`, hands the frame to
the pairing layer, advances `CTR`, starts a fresh zero frame and returns the ring to 0; nothing else changes
(R180, R182, R183; log entries 4, 5 and 7). -/
def Obligations.SyncycDispatchesInSlotTwo : Prop :=
  ∀ (v : Sample) (s : State), s.slot = 2 →
    ∃ (f : List Byte) (m : Memory),
      exec (.syncyc v) s =
        .next { s with frm := m, slot := 0, cycle := s.cycle + 1, ctr := s.ctr + 1,
                       tx := s.tx ++ [⟨.pairing, f⟩], status := some .ok, samples := none, frame := none } ∧
      (∀ a, m.read a = 0) ∧
      f.length = 64 ∧ f[0]? = some 0x80 ∧ f[1]? = some s.ctr ∧ f[2]? = some Config.synthId ∧
      Holds (fun a => f.getD a 0) (motionBase + 24) v ∧
      ∀ a, 3 ≤ a → a < 64 → ¬ InSlot 2 a →
        f[a]? = some ((lastWrite (auxWrites s.cycle) a).getD (s.frm.read a))

/-- Bytes 0 to 2 of `FRM` are never emitted: what they hold changes no frame that a cycle sends (R26, R183). -/
def Obligations.FrmHeaderIsNeverEmitted : Prop :=
  ∀ (v : Sample) (s t u : State) (m : Memory), (∀ a, 3 ≤ a → m.read a = s.frm.read a) →
    exec (.syncyc v) s = .next t → exec (.syncyc v) { s with frm := m } = .next u → u.tx = t.tx

/-- From slot 0 with a fresh frame, three SYNCYC emit exactly one frame: slot `k` holds the operands of cycle `k`, every
other payload byte is its last `AUX` write or zero, and the ring is back at slot 0 with a fresh frame (R185, R186;
log entries 4 and 5). -/
def Obligations.ThreeCyclesMakeOneFrame : Prop :=
  ∀ (v0 v1 v2 : Sample) (s : State), s.slot = 0 → (∀ a, s.frm.read a = 0) →
    ∃ (s1 s2 s3 : State) (f : List Byte),
      exec (.syncyc v0) s = .next s1 ∧ exec (.syncyc v1) s1 = .next s2 ∧ exec (.syncyc v2) s2 = .next s3 ∧
      s1.tx = s.tx ∧ s2.tx = s.tx ∧ s3.tx = s.tx ++ [⟨.pairing, f⟩] ∧
      f.length = 64 ∧ f[0]? = some 0x80 ∧ f[1]? = some s.ctr ∧ f[2]? = some Config.synthId ∧
      Holds (fun a => f.getD a 0) motionBase v0 ∧
      Holds (fun a => f.getD a 0) (motionBase + 12) v1 ∧
      Holds (fun a => f.getD a 0) (motionBase + 24) v2 ∧
      (∀ a, 3 ≤ a → a < 64 → ¬ (motionBase ≤ a ∧ a < motionBase + 36) →
        f[a]? = some ((lastWrite
          (auxWrites s.cycle ++ auxWrites (s.cycle + 1) ++ auxWrites (s.cycle + 2)) a).getD 0)) ∧
      s3.slot = 0 ∧ s3.ctr = s.ctr + 1 ∧ (∀ a, s3.frm.read a = 0) ∧ s3.ready = s.ready

/-! ### Wire patterns (log entry 9) -/

/-- RPT.STD is the report given to DECODE: its three samples are delivered and nothing else changes; a buffer too short
for them is no telemetry, one too long is refused (R81, R97, R111, R112; log entries 7, 8 and 9). -/
def Obligations.StandardReportDeliversSamples : Prop :=
  ∀ (rest : List Byte) (s : State),
    (48 ≤ rest.length → rest.length ≤ 63 →
      ∃ r : Samples,
        exec (.rptStd rest) s = .next { s with status := some .ok, samples := some r, frame := none } ∧
        SampleAt (0x30 :: rest) 13 r.s0 ∧ SampleAt (0x30 :: rest) 25 r.s1 ∧ SampleAt (0x30 :: rest) 37 r.s2) ∧
    (rest.length < 48 →
      exec (.rptStd rest) s = .next { s with status := some .notTelemetry, samples := none, frame := none }) ∧
    (63 < rest.length →
      exec (.rptStd rest) s = .next { s with status := some .badOperand, samples := none, frame := none })

/-- FRAME and FRAME.SYNTH give the frame of their counter, id and payload, and change nothing else; a payload that does
not fit is refused (R86, R92, R151, R153; log entries 7, 8 and 9). -/
def Obligations.FrameRowsGiveTheirFrame : Prop :=
  ∀ (c id : Byte) (p : List Byte) (s : State),
    (p.length ≤ 61 → ∃ f, IsFrame f c id p ∧
      exec (.frame c id p) s = .next { s with status := some .ok, samples := none, frame := some f } ∧
      exec (.frameSynth c id p) s = .next { s with status := some .ok, samples := none, frame := some f }) ∧
    (61 < p.length →
      exec (.frame c id p) s = .next { s with status := some .badOperand, samples := none, frame := none } ∧
      exec (.frameSynth c id p) s = .next { s with status := some .badOperand, samples := none, frame := none })

/-- The three device commands give their frames, byte for byte, and change nothing else (R91; log entries 7 and 9). -/
def Obligations.DeviceCommandRowsGiveTheirFrame : Prop :=
  ∀ (c : Byte) (s : State),
    exec (.frameSetModeStd c) s =
      .next { s with status := some .ok, samples := none, frame := some ([0x80, c, 0x03, 0x30] ++ List.replicate 60 0) } ∧
    exec (.frameTelemetryOn c) s =
      .next { s with status := some .ok, samples := none, frame := some ([0x80, c, 0x40, 0x01] ++ List.replicate 60 0) } ∧
    exec (.frameTelemetryOff c) s =
      .next { s with status := some .ok, samples := none, frame := some ([0x80, c, 0x40, 0x00] ++ List.replicate 60 0) }

/-- What ENABLE, DISABLE and a dispatch put on `tx` are the buffers of the table's rows, and decoding each buffer with
its sink gives that row (R91, R92, R96; the sink tag is log entry 10). -/
def Obligations.EmittedFramesAreTableRows : Prop :=
  ∀ (s t : State) (e : Emission),
    (exec .enable s = .next t → t.tx[s.tx.length]? = some e →
      decode (.frame e.sink e.bytes) = .ok (.frameSetModeStd s.ctr)) ∧
    (exec .enable s = .next t → t.tx[s.tx.length + 1]? = some e →
      decode (.frame e.sink e.bytes) = .ok (.frameTelemetryOn (s.ctr + 1))) ∧
    (exec .disable s = .next t → t.tx[s.tx.length]? = some e →
      decode (.frame e.sink e.bytes) = .ok (.frameTelemetryOff s.ctr)) ∧
    ∀ v, exec (.syncyc v) s = .next t → t.tx[s.tx.length]? = some e →
      ∃ p, decode (.frame e.sink e.bytes) = .ok (.frameSynth s.ctr Config.synthId p)
end

