-- ==== Sys2Proof/Laws/Memory.lean ====
section
/-! SUPPORT. The laws of FRM: read after write, and every operation keeps the canonical form. -/

namespace Sys2Proof.Machine

/-! ### Reading after writing -/

theorem Memory.read_erase (m : Memory) (a x : Nat) : (m.erase a).read x = if x = a then 0 else m.read x := by
  induction m with
  | nil => simp [Memory.erase, Memory.read]
  | cons c m ih =>
    obtain ⟨k, y⟩ := c
    by_cases hk : k = a
    · subst hk
      simp only [Memory.erase, if_true, ih, Memory.read]
      split <;> [rfl; (rw [if_neg (by omega)])]
    · simp only [Memory.erase, if_neg hk, Memory.read, ih]
      by_cases hx : k = x
      · subst hx; simp [hk]
      · simp [hx]

theorem Memory.read_insert (m : Memory) (a x : Nat) (b : Byte) (h : m.read a = 0 ∧ ∀ c ∈ m, c.1 ≠ a) :
    (m.insert a b).read x = if x = a then b else m.read x := by
  induction m with
  | nil => simp [Memory.insert, Memory.read, eq_comm]
  | cons c m ih =>
    obtain ⟨k, y⟩ := c
    have hk : k ≠ a := h.2 (k, y) (by simp)
    have hm : Memory.read m a = 0 ∧ ∀ c ∈ m, c.1 ≠ a :=
      ⟨by simpa [Memory.read, hk] using h.1, fun c hc => h.2 c (by simp [hc])⟩
    by_cases hlt : a < k
    · simp only [Memory.insert, if_pos hlt, Memory.read, eq_comm]
    · simp only [Memory.insert, if_neg hlt, Memory.read, ih hm]
      by_cases hx : k = x
      · subst hx; simp [hk]
      · simp [hx]

theorem Memory.mem_erase (m : Memory) (a : Nat) : ∀ c ∈ m.erase a, c.1 ≠ a ∧ c ∈ m := by
  induction m with
  | nil => simp [Memory.erase]
  | cons c m ih =>
    obtain ⟨k, y⟩ := c
    intro d hd
    by_cases hk : k = a
    · simp only [Memory.erase, if_pos hk] at hd
      exact ⟨(ih d hd).1, by simp [(ih d hd).2]⟩
    · simp only [Memory.erase, if_neg hk, List.mem_cons] at hd
      rcases hd with rfl | hd
      · simp [hk]
      · exact ⟨(ih d hd).1, by simp [(ih d hd).2]⟩

/-- Read after write: the byte written at its offset, every other offset as before. -/
theorem Memory.read_write (m : Memory) (a x : Nat) (b : Byte) :
    (m.write a b).read x = if x = a then b else m.read x := by
  unfold Memory.write
  split
  · next h => subst h; exact m.read_erase a x
  · rw [Memory.read_insert _ _ _ _ ⟨by simp [Memory.read_erase], fun c hc => (m.mem_erase a c hc).1⟩,
      Memory.read_erase]
    split <;> rfl

@[simp] theorem Memory.read_nil (a : Nat) : Memory.read [] a = 0 := rfl

/-- Read after a run of bytes is stored. -/
theorem Memory.read_writeBytes (bs : List Byte) (m : Memory) (a x : Nat) :
    (m.writeBytes a bs).read x = if a ≤ x ∧ x < a + bs.length then bs.getD (x - a) 0 else m.read x := by
  induction bs generalizing m a with
  | nil => simp [Memory.writeBytes]
  | cons b bs ih =>
    simp only [Memory.writeBytes, ih, Memory.read_write, List.length_cons]
    by_cases h1 : x = a
    · subst h1; simp
    · by_cases h2 : a + 1 ≤ x ∧ x < a + 1 + bs.length
      · obtain ⟨d, rfl⟩ : ∃ d, x = a + 1 + d := ⟨x - (a + 1), by omega⟩
        have e1 : a + 1 + d - (a + 1) = d := by omega
        have e2 : a + 1 + d - a = d + 1 := by omega
        rw [if_pos h2, if_pos (by omega), e1, e2, List.getD_cons_succ]
      · rw [if_neg h2, if_neg h1, if_neg (by omega)]

theorem lastWrite_nil (a : Nat) : lastWrite [] a = none := rfl

theorem lastWrite_append (ws us : List (Nat × Byte)) (a : Nat) :
    lastWrite (ws ++ us) a = (lastWrite us a).or (lastWrite ws a) := by
  simp only [lastWrite, List.reverse_append, List.find?_append]
  cases us.reverse.find? fun w => w.1 == a <;> simp

theorem lastWrite_cons (k : Nat) (b : Byte) (ws : List (Nat × Byte)) (a : Nat) :
    lastWrite ((k, b) :: ws) a = (lastWrite ws a).or (if k = a then some b else none) := by
  rw [← List.singleton_append, lastWrite_append]
  congr 1
  by_cases h : k = a <;> simp [lastWrite, h]

/-- Read after a list of writes: the last write to the offset, else as before. -/
theorem Memory.read_writeAll (ws : List (Nat × Byte)) (m : Memory) (x : Nat) :
    (m.writeAll ws).read x = (lastWrite ws x).getD (m.read x) := by
  induction ws generalizing m with
  | nil => simp [Memory.writeAll, lastWrite_nil]
  | cons w ws ih =>
    obtain ⟨a, b⟩ := w
    simp only [Memory.writeAll, ih, Memory.read_write, lastWrite_cons]
    cases lastWrite ws x <;> by_cases h : a = x <;> simp [h, eq_comm (a := x)]

/-! ### The canonical form -/

theorem Memory.wfFrom_cons (lo a : Nat) (b : Byte) (m : Memory) :
    Memory.wfFrom lo ((a, b) :: m) = true ↔ lo ≤ a ∧ a < 64 ∧ b ≠ 0 ∧ Memory.wfFrom (a + 1) m = true := by
  simp [Memory.wfFrom, and_assoc]

theorem Memory.wfFrom_mono {lo lo' : Nat} {m : Memory} (h : Memory.wfFrom lo' m = true) (hl : lo ≤ lo') :
    Memory.wfFrom lo m = true := by
  cases m with
  | nil => rfl
  | cons c m =>
    obtain ⟨k, y⟩ := c
    rw [Memory.wfFrom_cons] at h ⊢
    exact ⟨by omega, h.2⟩

theorem Memory.wfFrom_erase {lo : Nat} {m : Memory} (a : Nat) (h : Memory.wfFrom lo m = true) :
    Memory.wfFrom lo (m.erase a) = true := by
  induction m generalizing lo with
  | nil => rfl
  | cons c m ih =>
    obtain ⟨k, y⟩ := c
    rw [Memory.wfFrom_cons] at h
    by_cases hk : k = a
    · simp only [Memory.erase, if_pos hk]
      exact Memory.wfFrom_mono (ih h.2.2.2) (by omega)
    · simp only [Memory.erase, if_neg hk, Memory.wfFrom_cons]
      exact ⟨h.1, h.2.1, h.2.2.1, ih h.2.2.2⟩

theorem Memory.wfFrom_insert {lo : Nat} {m : Memory} {a : Nat} {b : Byte} (h : Memory.wfFrom lo m = true)
    (hlo : lo ≤ a) (ha : a < 64) (hb : b ≠ 0) (hm : ∀ c ∈ m, c.1 ≠ a) :
    Memory.wfFrom lo (m.insert a b) = true := by
  induction m generalizing lo with
  | nil => exact (Memory.wfFrom_cons ..).mpr ⟨hlo, ha, hb, rfl⟩
  | cons c m ih =>
    obtain ⟨k, y⟩ := c
    have hk : k ≠ a := hm (k, y) (by simp)
    rw [Memory.wfFrom_cons] at h
    by_cases hlt : a < k
    · simp only [Memory.insert, if_pos hlt, Memory.wfFrom_cons]
      exact ⟨hlo, ha, hb, by omega, h.2⟩
    · simp only [Memory.insert, if_neg hlt, Memory.wfFrom_cons]
      exact ⟨h.1, h.2.1, h.2.2.1, ih h.2.2.2 (by omega) fun c hc => hm c (by simp [hc])⟩

theorem Memory.wf_write {m : Memory} {a : Nat} (b : Byte) (h : m.wf = true) (ha : a < 64) :
    (m.write a b).wf = true := by
  unfold Memory.write
  split
  · exact Memory.wfFrom_erase a h
  · next hb => exact Memory.wfFrom_insert (Memory.wfFrom_erase a h) (Nat.zero_le _) ha hb fun c hc =>
      (m.mem_erase a c hc).1

theorem Memory.wf_writeBytes (bs : List Byte) {m : Memory} {a : Nat} (h : m.wf = true) (ha : a + bs.length ≤ 64) :
    (m.writeBytes a bs).wf = true := by
  induction bs generalizing m a with
  | nil => exact h
  | cons b bs ih =>
    rw [List.length_cons] at ha
    exact ih (Memory.wf_write b h (by omega)) (by omega)

theorem Memory.wf_writeAll (ws : List (Nat × Byte)) {m : Memory} (h : m.wf = true) (hw : ∀ w ∈ ws, w.1 < 64) :
    (m.writeAll ws).wf = true := by
  induction ws generalizing m with
  | nil => exact h
  | cons w ws ih =>
    obtain ⟨a, b⟩ := w
    exact ih (Memory.wf_write b h (hw (a, b) (by simp))) fun w hw' => hw w (by simp [hw'])

@[simp] theorem Memory.wf_nil : Memory.wf [] = true := rfl

/-- The memory of reset, and of a fresh frame, is canonical. -/
theorem reset_frm_wf : State.reset.frm.wf = true := rfl

theorem Memory.read_of_wfFrom {lo a : Nat} {m : Memory} (h : Memory.wfFrom lo m = true) (ha : a < lo) :
    m.read a = 0 := by
  induction m generalizing lo with
  | nil => rfl
  | cons c m ih =>
    obtain ⟨k, y⟩ := c
    rw [Memory.wfFrom_cons] at h
    simp only [Memory.read]
    rw [if_neg (by omega), ih h.2.2.2 (by omega)]

/-- Canonical memories that read alike are the same list. -/
theorem Memory.ext_wfFrom {lo : Nat} {m m' : Memory} (h : Memory.wfFrom lo m = true)
    (h' : Memory.wfFrom lo m' = true) (heq : ∀ a, m.read a = m'.read a) : m = m' := by
  induction m generalizing lo m' with
  | nil =>
    cases m' with
    | nil => rfl
    | cons c m' =>
      obtain ⟨k, y⟩ := c
      rw [Memory.wfFrom_cons] at h'
      have := heq k
      simp only [Memory.read, if_true] at this
      exact absurd this.symm h'.2.2.1
  | cons c m ih =>
    obtain ⟨k, y⟩ := c
    rw [Memory.wfFrom_cons] at h
    cases m' with
    | nil =>
      have := heq k
      simp only [Memory.read, if_true] at this
      exact absurd this h.2.2.1
    | cons c' m' =>
      obtain ⟨k', y'⟩ := c'
      rw [Memory.wfFrom_cons] at h'
      have hkk : k = k' := by
        rcases Nat.lt_trichotomy k k' with hlt | rfl | hlt
        · have := heq k
          simp only [Memory.read, if_true] at this
          rw [if_neg (by omega), Memory.read_of_wfFrom h'.2.2.2 (by omega)] at this
          exact absurd this h.2.2.1
        · rfl
        · have := heq k'
          simp only [Memory.read, if_true] at this
          rw [if_neg (by omega), Memory.read_of_wfFrom h.2.2.2 (by omega)] at this
          exact absurd this.symm h'.2.2.1
      subst hkk
      have hy : y = y' := by simpa [Memory.read] using heq k
      subst hy
      refine congrArg _ (ih h.2.2.2 h'.2.2.2 fun a => ?_)
      by_cases ha : k = a
      · subst ha
        rw [Memory.read_of_wfFrom h.2.2.2 (by omega), Memory.read_of_wfFrom h'.2.2.2 (by omega)]
      · simpa [Memory.read, ha] using heq a

theorem Memory.ext_wf {m m' : Memory} (h : m.wf = true) (h' : m'.wf = true) (heq : ∀ a, m.read a = m'.read a) :
    m = m' := Memory.ext_wfFrom h h' heq

/-! ### Slices -/

@[simp] theorem Memory.length_slice (m : Memory) (a n : Nat) : (m.slice a n).length = n := by simp [Memory.slice]

theorem Memory.getElem?_slice (m : Memory) (a n k : Nat) (h : k < n) : (m.slice a n)[k]? = some (m.read (a + k)) := by
  simp [Memory.slice, h]

end Sys2Proof.Machine
end

