-- ==== Sys2Proof/Laws/State.lean ====
section
/-! SUPPORT. What each named update does to each field of the state. -/

namespace Sys2Proof.Machine

section FinishFields
variable (st : Status) (s : State)

@[simp] theorem finish_ctr : (finish st s).ctr = s.ctr := rfl
@[simp] theorem finish_slot : (finish st s).slot = s.slot := rfl
@[simp] theorem finish_ready : (finish st s).ready = s.ready := rfl
@[simp] theorem finish_frm : (finish st s).frm = s.frm := rfl
@[simp] theorem finish_status : (finish st s).status = some st := rfl
@[simp] theorem finish_samples : (finish st s).samples = none := rfl
@[simp] theorem finish_frame : (finish st s).frame = none := rfl
@[simp] theorem finish_tx : (finish st s).tx = s.tx := rfl
@[simp] theorem finish_log : (finish st s).log = s.log := rfl
@[simp] theorem finish_pending : (finish st s).pending = s.pending := rfl
@[simp] theorem finish_oks : (finish st s).oks = s.oks := rfl
@[simp] theorem finish_draws : (finish st s).draws = s.draws := rfl
@[simp] theorem finish_cycle : (finish st s).cycle = s.cycle := rfl

end FinishFields

section FinishSamplesFields
variable (r : Samples) (s : State)

@[simp] theorem finishSamples_ctr : (finishSamples r s).ctr = s.ctr := rfl
@[simp] theorem finishSamples_slot : (finishSamples r s).slot = s.slot := rfl
@[simp] theorem finishSamples_ready : (finishSamples r s).ready = s.ready := rfl
@[simp] theorem finishSamples_frm : (finishSamples r s).frm = s.frm := rfl
@[simp] theorem finishSamples_status : (finishSamples r s).status = some .ok := rfl
@[simp] theorem finishSamples_samples : (finishSamples r s).samples = some r := rfl
@[simp] theorem finishSamples_frame : (finishSamples r s).frame = none := rfl
@[simp] theorem finishSamples_tx : (finishSamples r s).tx = s.tx := rfl
@[simp] theorem finishSamples_log : (finishSamples r s).log = s.log := rfl
@[simp] theorem finishSamples_pending : (finishSamples r s).pending = s.pending := rfl
@[simp] theorem finishSamples_oks : (finishSamples r s).oks = s.oks := rfl
@[simp] theorem finishSamples_draws : (finishSamples r s).draws = s.draws := rfl
@[simp] theorem finishSamples_cycle : (finishSamples r s).cycle = s.cycle := rfl

end FinishSamplesFields

section FinishFrameFields
variable (f : List Byte) (s : State)

@[simp] theorem finishFrame_ctr : (finishFrame f s).ctr = s.ctr := rfl
@[simp] theorem finishFrame_slot : (finishFrame f s).slot = s.slot := rfl
@[simp] theorem finishFrame_ready : (finishFrame f s).ready = s.ready := rfl
@[simp] theorem finishFrame_frm : (finishFrame f s).frm = s.frm := rfl
@[simp] theorem finishFrame_status : (finishFrame f s).status = some .ok := rfl
@[simp] theorem finishFrame_samples : (finishFrame f s).samples = none := rfl
@[simp] theorem finishFrame_frame : (finishFrame f s).frame = some f := rfl
@[simp] theorem finishFrame_tx : (finishFrame f s).tx = s.tx := rfl
@[simp] theorem finishFrame_log : (finishFrame f s).log = s.log := rfl
@[simp] theorem finishFrame_pending : (finishFrame f s).pending = s.pending := rfl
@[simp] theorem finishFrame_oks : (finishFrame f s).oks = s.oks := rfl
@[simp] theorem finishFrame_draws : (finishFrame f s).draws = s.draws := rfl
@[simp] theorem finishFrame_cycle : (finishFrame f s).cycle = s.cycle := rfl

end FinishFrameFields

section StampFields
variable (k : Sink) (id : Byte) (p : List Byte) (s : State)

@[simp] theorem stamp_ctr : (stamp k id p s).ctr = s.ctr + 1 := rfl
@[simp] theorem stamp_slot : (stamp k id p s).slot = s.slot := rfl
@[simp] theorem stamp_ready : (stamp k id p s).ready = s.ready := rfl
@[simp] theorem stamp_frm : (stamp k id p s).frm = s.frm := rfl
@[simp] theorem stamp_status : (stamp k id p s).status = s.status := rfl
@[simp] theorem stamp_samples : (stamp k id p s).samples = s.samples := rfl
@[simp] theorem stamp_frame : (stamp k id p s).frame = s.frame := rfl
@[simp] theorem stamp_tx : (stamp k id p s).tx = s.tx ++ [⟨k, build s.ctr id p⟩] := rfl
@[simp] theorem stamp_log : (stamp k id p s).log = s.log := rfl
@[simp] theorem stamp_pending : (stamp k id p s).pending = s.pending := rfl
@[simp] theorem stamp_oks : (stamp k id p s).oks = s.oks := rfl
@[simp] theorem stamp_draws : (stamp k id p s).draws = s.draws := rfl
@[simp] theorem stamp_cycle : (stamp k id p s).cycle = s.cycle := rfl

end StampFields

section SetReadyFields
variable (b : Bool) (s : State)

@[simp] theorem setReady_ctr : (setReady b s).ctr = s.ctr := rfl
@[simp] theorem setReady_slot : (setReady b s).slot = s.slot := rfl
@[simp] theorem setReady_ready : (setReady b s).ready = b := rfl
@[simp] theorem setReady_frm : (setReady b s).frm = s.frm := rfl
@[simp] theorem setReady_status : (setReady b s).status = s.status := rfl
@[simp] theorem setReady_samples : (setReady b s).samples = s.samples := rfl
@[simp] theorem setReady_frame : (setReady b s).frame = s.frame := rfl
@[simp] theorem setReady_tx : (setReady b s).tx = s.tx := rfl
@[simp] theorem setReady_log : (setReady b s).log = s.log := rfl
@[simp] theorem setReady_pending : (setReady b s).pending = s.pending := rfl
@[simp] theorem setReady_oks : (setReady b s).oks = s.oks := rfl
@[simp] theorem setReady_draws : (setReady b s).draws = s.draws := rfl
@[simp] theorem setReady_cycle : (setReady b s).cycle = s.cycle := rfl

end SetReadyFields

section SetFrmFields
variable (m : Memory) (s : State)

@[simp] theorem setFrm_ctr : (setFrm m s).ctr = s.ctr := rfl
@[simp] theorem setFrm_slot : (setFrm m s).slot = s.slot := rfl
@[simp] theorem setFrm_ready : (setFrm m s).ready = s.ready := rfl
@[simp] theorem setFrm_frm : (setFrm m s).frm = m := rfl
@[simp] theorem setFrm_status : (setFrm m s).status = s.status := rfl
@[simp] theorem setFrm_samples : (setFrm m s).samples = s.samples := rfl
@[simp] theorem setFrm_frame : (setFrm m s).frame = s.frame := rfl
@[simp] theorem setFrm_tx : (setFrm m s).tx = s.tx := rfl
@[simp] theorem setFrm_log : (setFrm m s).log = s.log := rfl
@[simp] theorem setFrm_pending : (setFrm m s).pending = s.pending := rfl
@[simp] theorem setFrm_oks : (setFrm m s).oks = s.oks := rfl
@[simp] theorem setFrm_draws : (setFrm m s).draws = s.draws := rfl
@[simp] theorem setFrm_cycle : (setFrm m s).cycle = s.cycle := rfl

end SetFrmFields

section PulseFields
variable (s : State)

@[simp] theorem pulse_ctr : (pulse s).ctr = s.ctr := rfl
@[simp] theorem pulse_slot : (pulse s).slot = s.slot := rfl
@[simp] theorem pulse_ready : (pulse s).ready = s.ready := rfl
@[simp] theorem pulse_frm : (pulse s).frm = s.frm := rfl
@[simp] theorem pulse_status : (pulse s).status = s.status := rfl
@[simp] theorem pulse_samples : (pulse s).samples = s.samples := rfl
@[simp] theorem pulse_frame : (pulse s).frame = s.frame := rfl
@[simp] theorem pulse_tx : (pulse s).tx = s.tx := rfl
@[simp] theorem pulse_log : (pulse s).log = s.log + 1 := rfl
@[simp] theorem pulse_pending : (pulse s).pending = s.pending := rfl
@[simp] theorem pulse_oks : (pulse s).oks = s.oks := rfl
@[simp] theorem pulse_draws : (pulse s).draws = s.draws := rfl
@[simp] theorem pulse_cycle : (pulse s).cycle = s.cycle := rfl

end PulseFields

section AdvanceFields
variable (s : State)

@[simp] theorem advance_ctr : (advance s).ctr = s.ctr := rfl
@[simp] theorem advance_slot : (advance s).slot = s.slot + 1 := rfl
@[simp] theorem advance_ready : (advance s).ready = s.ready := rfl
@[simp] theorem advance_frm : (advance s).frm = s.frm := rfl
@[simp] theorem advance_status : (advance s).status = s.status := rfl
@[simp] theorem advance_samples : (advance s).samples = s.samples := rfl
@[simp] theorem advance_frame : (advance s).frame = s.frame := rfl
@[simp] theorem advance_tx : (advance s).tx = s.tx := rfl
@[simp] theorem advance_log : (advance s).log = s.log := rfl
@[simp] theorem advance_pending : (advance s).pending = s.pending := rfl
@[simp] theorem advance_oks : (advance s).oks = s.oks := rfl
@[simp] theorem advance_draws : (advance s).draws = s.draws := rfl
@[simp] theorem advance_cycle : (advance s).cycle = s.cycle + 1 := rfl

end AdvanceFields

section DropAnswerFields
variable (s : State)

@[simp] theorem dropAnswer_ctr : (dropAnswer s).ctr = s.ctr := by unfold dropAnswer; split <;> rfl
@[simp] theorem dropAnswer_slot : (dropAnswer s).slot = s.slot := by unfold dropAnswer; split <;> rfl
@[simp] theorem dropAnswer_ready : (dropAnswer s).ready = s.ready := by unfold dropAnswer; split <;> rfl
@[simp] theorem dropAnswer_frm : (dropAnswer s).frm = s.frm := by unfold dropAnswer; split <;> rfl
@[simp] theorem dropAnswer_status : (dropAnswer s).status = s.status := by unfold dropAnswer; split <;> rfl
@[simp] theorem dropAnswer_samples : (dropAnswer s).samples = s.samples := by unfold dropAnswer; split <;> rfl
@[simp] theorem dropAnswer_frame : (dropAnswer s).frame = s.frame := by unfold dropAnswer; split <;> rfl
@[simp] theorem dropAnswer_tx : (dropAnswer s).tx = s.tx := by unfold dropAnswer; split <;> rfl
@[simp] theorem dropAnswer_log : (dropAnswer s).log = s.log := by unfold dropAnswer; split <;> rfl
@[simp] theorem dropAnswer_pending : (dropAnswer s).pending = s.pending := by unfold dropAnswer; split <;> rfl
@[simp] theorem dropAnswer_cycle : (dropAnswer s).cycle = s.cycle := by unfold dropAnswer; split <;> rfl

end DropAnswerFields

section SentFields
variable (id : Byte) (p : List Byte) (s : State)

@[simp] theorem sent_ctr : (sent id p s).ctr = s.ctr + 1 := by simp [sent]
@[simp] theorem sent_slot : (sent id p s).slot = s.slot := by simp [sent]
@[simp] theorem sent_ready : (sent id p s).ready = s.ready := by simp [sent]
@[simp] theorem sent_frm : (sent id p s).frm = s.frm := by simp [sent]
@[simp] theorem sent_status : (sent id p s).status = s.status := by simp [sent]
@[simp] theorem sent_samples : (sent id p s).samples = s.samples := by simp [sent]
@[simp] theorem sent_frame : (sent id p s).frame = s.frame := by simp [sent]
@[simp] theorem sent_tx : (sent id p s).tx = s.tx ++ [⟨.transport, build s.ctr id p⟩] := by simp [sent]
@[simp] theorem sent_log : (sent id p s).log = s.log := by simp [sent]
@[simp] theorem sent_pending : (sent id p s).pending = s.pending := by simp [sent]
@[simp] theorem sent_cycle : (sent id p s).cycle = s.cycle := by simp [sent]

end SentFields

end Sys2Proof.Machine
end

