-- ==== Sys2Proof/Laws/Operands.lean ====
section
/-! SUPPORT. The laws of fields, samples, slots, frames and answers: what the shared operations give. -/

namespace Sys2Proof.Machine

/-! ### Fields -/

@[simp] theorem length_le16 (v : Int) : (le16 v).length = 2 := rfl

@[simp] theorem length_sampleBytes (v : Sample) : (sampleBytes v).length = 12 := rfl

@[simp] theorem length_toList (v : Sample) : v.toList.length = 6 := rfl

/-- The split depends on the operand modulo 65536 only. -/
theorem le16_congr {v w : Int} (h : v % 65536 = w % 65536) : le16 v = le16 w := by simp only [le16, h]

/-- The two bytes of a field of a sample, at `2 j` and `2 j + 1`. -/
theorem getElem?_sampleBytes (v : Sample) {j : Nat} {x : Int} (h : v.toList[j]? = some x) :
    (sampleBytes v)[2 * j]? = (le16 x)[0]? ∧ (sampleBytes v)[2 * j + 1]? = (le16 x)[1]? := by
  have hj : j < 6 := by simpa using (List.getElem?_eq_some_iff.mp h).1
  interval_cases j <;> simp only [Sample.toList, List.getElem?_cons_succ, List.getElem?_cons_zero, Option.some.injEq] at h <;>
    subst h <;> exact ⟨rfl, rfl⟩

theorem sampleBytes_congr {v w : Sample}
    (h : List.Forall₂ (fun x y => x % 65536 = y % 65536) v.toList w.toList) : sampleBytes v = sampleBytes w := by
  simp only [Sample.toList, List.forall₂_cons, List.Forall₂.nil, and_true] at h
  obtain ⟨h0, h1, h2, h3, h4, h5⟩ := h
  simp only [sampleBytes, le16_congr h0, le16_congr h1, le16_congr h2, le16_congr h3, le16_congr h4, le16_congr h5]

/-- The two bytes read as two's complement are `sext16` of the pattern (R50, R85). -/
theorem sext16_toInt (lo hi : Byte) : sext16 (lo.toNat + 256 * hi.toNat) = (hi ++ lo).toInt := by
  have h1 := lo.isLt
  have h2 := hi.isLt
  have h : (hi ++ lo).toNat = lo.toNat + 256 * hi.toNat := by
    rw [BitVec.toNat_append, Nat.shiftLeft_eq, Nat.mul_comm, ← Nat.two_pow_add_eq_or_of_lt h1]; omega
  rw [BitVec.toInt_eq_toNat_cond, h]
  simp only [sext16]
  split <;> split <;> omega

/-- A field written and read back is the operand wrapped to 16 bits (R137). -/
theorem sext16_le16 (v : Int) :
    sext16 ((BitVec.ofNat 8 ((v % 65536).toNat % 256)).toNat + 256 * (BitVec.ofNat 8 ((v % 65536).toNat / 256 % 256)).toNat)
      = (BitVec.ofInt 16 v).toInt := by
  have h1 : 0 ≤ v % 65536 := Int.emod_nonneg _ (by omega)
  have h2 : v % 65536 < 65536 := Int.emod_lt_of_pos _ (by omega)
  rw [BitVec.toInt_ofInt, Int.bmod_def]
  simp only [BitVec.toNat_ofNat, sext16]
  norm_num
  split <;> split <;> omega

/-! ### Slots and parameters -/

theorem motionBase_bounds : 3 ≤ motionBase ∧ motionBase ≤ 28 := by
  have := Config.motionIndex.isLt
  unfold motionBase; omega

theorem auxWrites_admissible {n : Nat} {w : Nat × Byte} (h : w ∈ auxWrites n) :
    3 ≤ w.1 ∧ w.1 < 64 ∧ (w.1 < motionBase ∨ motionBase + 36 ≤ w.1) := by
  have := (List.mem_filter.mp h).2
  simp only [auxAdmissible, Bool.and_eq_true, Bool.or_eq_true, decide_eq_true_eq] at this
  omega

/-- No `AUX` write touches the motion region (R184). -/
theorem lastWrite_auxWrites {n a : Nat} (h : motionBase ≤ a ∧ a < motionBase + 36) : lastWrite (auxWrites n) a = none := by
  simp only [lastWrite, Option.map_eq_none_iff, List.find?_eq_none, List.mem_reverse, beq_iff_eq]
  intro w hw he
  have := auxWrites_admissible hw
  omega

/-- Reading after a slot is encoded (R131, R132). -/
theorem read_encSlot (base : Nat) (f : Memory) (slot : Nat) (v : Sample) (a : Nat) :
    (encSlot base f slot v).read a =
      if base + 12 * slot ≤ a ∧ a < base + 12 * slot + 12 then (sampleBytes v).getD (a - (base + 12 * slot)) 0
      else f.read a := by
  unfold encSlot; rw [Memory.read_writeBytes, length_sampleBytes]

theorem wf_encSlot {base slot : Nat} {f : Memory} (v : Sample) (h : f.wf = true) (hb : base ≤ 28) (hs : slot ≤ 2) :
    (encSlot base f slot v).wf = true := Memory.wf_writeBytes _ h (by rw [length_sampleBytes]; omega)

/-! ### Frames -/

@[simp] theorem length_build (c id : Byte) {p : List Byte} (h : p.length ≤ 61) : (build c id p).length = 64 := by
  simp [build]; omega

theorem build_header (c id : Byte) (p : List Byte) :
    (build c id p)[0]? = some 0x80 ∧ (build c id p)[1]? = some c ∧ (build c id p)[2]? = some id :=
  ⟨rfl, rfl, rfl⟩

/-- Bytes from offset 3 on: the payload, then zero padding (R87). -/
theorem getElem?_build (c id : Byte) (p : List Byte) (k : Nat) :
    (build c id p)[3 + k]? = if k < p.length then p[k]? else if k < 61 then some 0 else none := by
  have : (build c id p)[3 + k]? = (p ++ List.replicate (61 - p.length) 0)[k]? := by
    rw [Nat.add_comm]; rfl
  rw [this]
  split
  · next h => rw [List.getElem?_append_left h]
  · next h =>
    rw [List.getElem?_append_right (by omega), List.getElem?_replicate]
    split <;> split <;> first | rfl | omega

/-- The frame is its header and payload when the payload fills it. -/
theorem build_full (c id : Byte) {p : List Byte} (h : p.length = 61) : build c id p = 0x80 :: c :: id :: p := by
  simp [build, h]

/-- A frame of a dispatch carries bytes 3 to 63 of `FRM` (R183). -/
theorem getElem?_build_slice (c id : Byte) (m : Memory) {a : Nat} (h3 : 3 ≤ a) (h : a < 64) :
    (build c id (m.slice 3 61))[a]? = some (m.read a) := by
  obtain ⟨k, rfl⟩ : ∃ k, a = 3 + k := ⟨a - 3, by omega⟩
  rw [getElem?_build, if_pos (by simp; omega), Memory.getElem?_slice _ _ _ _ (by omega)]

/-! ### The transport's answers -/

@[simp] theorem answer_stamp (k : Sink) (id : Byte) (p : List Byte) (s : State) (n : Nat) :
    answer (stamp k id p s) n = answer s n := rfl

/-- Using one answer makes the next one current. -/
theorem answer_dropAnswer (s : State) (n : Nat) : answer (dropAnswer s) n = answer s (n + 1) := by
  unfold answer dropAnswer
  cases h : s.oks with
  | nil => simp [Nat.add_assoc, Nat.add_comm 1 n]
  | cons b bs => simp

@[simp] theorem answer_sent (id : Byte) (p : List Byte) (s : State) (n : Nat) :
    answer (sent id p s) n = answer s (n + 1) := by
  rw [sent, answer_dropAnswer, answer_stamp]

/-- Everything a send does to the state (R155, R156). -/
theorem sent_eq (id : Byte) (p : List Byte) (s : State) :
    sent id p s = { s with ctr := s.ctr + 1, tx := s.tx ++ [⟨.transport, build s.ctr id p⟩],
                           oks := s.oks.drop 1, draws := s.draws + (1 - s.oks.length) } := by
  cases h : s.oks <;> simp [sent, dropAnswer, stamp, h]

/-! ### Decoding a report -/

/-- The samples of a sample-bearing report (R111, R114). -/
theorem decodeRx_sampleBearing {rx : List Byte} {len : Nat} (h : 49 ≤ len) (hl : len ≤ rx.length)
    (ht : rx[0]? = some 0x30) :
    decodeRx rx len =
      .samples ⟨readSample (rx.take len) 13, readSample (rx.take len) 25, readSample (rx.take len) 37⟩ := by
  have h0 : (rx.take len)[0]? = some 0x30 := by rw [List.getElem?_take, if_pos (by omega), ht]
  have hn : (rx.take len).length = len := by rw [List.length_take]; omega
  unfold decodeRx decodeSamples sampleAt
  rw [if_neg (by omega), if_neg (by simp [h0]), if_pos (by omega), if_pos (by omega), if_pos (by omega)]

end Sys2Proof.Machine
end

