-- ==== Sys2Proof/Laws/PerInstr.lean ====
section
/-! SUPPORT. The per-instruction family WordFormat: the word of each instruction has the form its row of the table has. -/

namespace Sys2Proof.Laws.WordFormat

/-- A word on the command port with a value of `op` (R95). -/
def OnPort (n : Nat) (w : Word) : Prop := ∃ c, w = .command c ∧ c.op.toNat = n

/-- A sample-bearing report (R81). -/
def IsReport (w : Word) : Prop := ∃ rx, w = .report rx ∧ rx[0]? = some 0x30 ∧ 49 ≤ rx.length ∧ rx.length ≤ 64

/-- An outbound frame for a sink, with its counter (R86). -/
def IsFrameFor (k : Sink) (c : Byte) (w : Word) : Prop :=
  ∃ bytes, w = .frame k bytes ∧ bytes.length = 64 ∧ bytes[0]? = some 0x80 ∧ bytes[1]? = some c

/-- The form of a row. -/
def RowForm : Instr → Word → Prop
  | .decode _ _ => OnPort 0
  | .encslot _ _ => OnPort 1
  | .build _ _ _ => OnPort 2
  | .send _ _ => OnPort 3
  | .enable => OnPort 4
  | .disable => OnPort 5
  | .syncyc _ => OnPort 6
  | .rptStd _ => IsReport
  | .frame c _ _ => IsFrameFor .transport c
  | .frameSetModeStd c => IsFrameFor .transport c
  | .frameTelemetryOn c => IsFrameFor .transport c
  | .frameTelemetryOff c => IsFrameFor .transport c
  | .frameSynth c _ _ => IsFrameFor .pairing c

/-- The word of a well-formed instruction has its row's form. -/
def Statement (i : Instr) : Prop := i.wellFormed = true → RowForm i (encode i)

theorem decode (rx : List Byte) (len : Nat) : Statement (.decode rx len) := fun _ => ⟨_, rfl, rfl⟩

theorem encslot (slot : BitVec 2) (v : Sample) : Statement (.encslot slot v) := fun _ => ⟨_, rfl, rfl⟩

theorem build (c id : Byte) (p : List Byte) : Statement (.build c id p) := fun _ => ⟨_, rfl, rfl⟩

theorem send (id : Byte) (p : List Byte) : Statement (.send id p) := fun _ => ⟨_, rfl, rfl⟩

theorem enable : Statement .enable := fun _ => ⟨_, rfl, rfl⟩

theorem disable : Statement .disable := fun _ => ⟨_, rfl, rfl⟩

theorem syncyc (v : Sample) : Statement (.syncyc v) := fun _ => ⟨_, rfl, rfl⟩

theorem rptStd (rest : List Byte) : Statement (.rptStd rest) := fun h => by
  simp only [Instr.wellFormed, Bool.and_eq_true, decide_eq_true_eq] at h
  exact ⟨_, rfl, rfl, by simp only [List.length_cons]; omega, by simp only [List.length_cons]; omega⟩

theorem frame (c id : Byte) (p : List Byte) : Statement (.frame c id p) := fun h => by
  simp only [Instr.wellFormed, Bool.and_eq_true, decide_eq_true_eq] at h
  exact ⟨_, rfl, by simp only [List.length_cons]; omega, rfl, rfl⟩

theorem frameSetModeStd (c : Byte) : Statement (.frameSetModeStd c) := fun _ => ⟨_, rfl, rfl, rfl, rfl⟩

theorem frameTelemetryOn (c : Byte) : Statement (.frameTelemetryOn c) := fun _ => ⟨_, rfl, rfl, rfl, rfl⟩

theorem frameTelemetryOff (c : Byte) : Statement (.frameTelemetryOff c) := fun _ => ⟨_, rfl, rfl, rfl, rfl⟩

theorem frameSynth (c id : Byte) (p : List Byte) : Statement (.frameSynth c id p) := fun h => by
  simp only [Instr.wellFormed, decide_eq_true_eq] at h
  exact ⟨_, rfl, by simp only [List.length_cons]; omega, rfl, rfl⟩

end Sys2Proof.Laws.WordFormat
end

