-- ==== Sys2Proof/Laws/Step.lean ====
section
/-! SUPPORT. What an instruction and a step can do, said once. -/

namespace Sys2Proof.Machine

/-! ### Ends that touch the ports only -/

/-- The end of a DECODE changes the result ports only (R110). -/
theorem finishDecode_ports (r : DecodeResult) (s : State) :
    ∃ st x, finishDecode r s = { s with status := some st, samples := x, frame := none } := by
  cases r <;> exact ⟨_, _, rfl⟩

/-- `build` on the port `frame` changes the result ports only (R150, R153). -/
theorem buildOn_ports (c id : Byte) (p : List Byte) (s : State) :
    ∃ st f, buildOn c id p s = { s with status := some st, samples := none, frame := f } := by
  unfold buildOn; split <;> exact ⟨_, _, rfl⟩

/-- A payload that fits gives its frame (R150). -/
theorem buildOn_fits (c id : Byte) {p : List Byte} (s : State) (h : p.length ≤ 61) :
    buildOn c id p s = finishFrame (build c id p) s := if_neg (by omega)

/-- The slots that ENCSLOT accepts (R97). -/
theorem slot_le_two {slot : BitVec 2} (h : slot ≠ 3) : slot.toNat ≤ 2 := by
  have h1 := slot.isLt
  have h2 : slot.toNat ≠ 3 := fun e => h (BitVec.eq_of_toNat_eq e)
  omega

/-! ### SYNCYC -/

/-- A cycle without a dispatch (R180, R182). -/
theorem cycled_fill {s : State} (base : Nat) (synthId : Byte) (aux : List (Nat × Byte)) (v : Sample)
    (h : s.slot ≠ 2) :
    cycled base synthId aux v s =
      { s with frm := encSlot base (s.frm.writeAll aux) s.slot.val v, slot := s.slot + 1, cycle := s.cycle + 1,
               status := some .ok, samples := none, frame := none } := by
  simp only [cycled]; rw [if_neg h]; rfl

/-- A cycle with a dispatch (R180, R183). -/
theorem cycled_dispatch {s : State} (base : Nat) (synthId : Byte) (aux : List (Nat × Byte)) (v : Sample)
    (h : s.slot = 2) :
    cycled base synthId aux v s =
      { s with frm := [], slot := 0, cycle := s.cycle + 1, ctr := s.ctr + 1,
               tx := s.tx ++ [⟨.pairing, build s.ctr synthId ((encSlot base (s.frm.writeAll aux) 2 v).slice 3 61)⟩],
               status := some .ok, samples := none, frame := none } := by
  simp [cycled, h, finish, advance, dispatch, setFrm, stamp]

/-! ### Words that are no instruction -/

/-- A command word is refused with `BAD_OP` and no other name. -/
theorem decodeCommand_error {w : CommandWord} {e : DecodeError} (h : decodeCommand w = .error e) : e = .badOp := by
  unfold decodeCommand at h
  split at h <;> simp_all

/-- A report is refused as too long or as not sample-bearing. -/
theorem decodeReport_error {rx : List Byte} {e : DecodeError} (h : decodeReport rx = .error e) :
    e = .reportTooLong ∧ 64 < rx.length ∨
      e = .notSampleBearing ∧ rx.length ≤ 64 ∧ (rx.length < 49 ∨ rx[0]? ≠ some 0x30) := by
  cases rx with
  | nil => cases h; simp
  | cons t r =>
    simp only [decodeReport] at h
    split at h
    · cases h; simp; omega
    · split at h
      · cases h
      · next h1 h2 =>
        cases h
        refine .inr ⟨rfl, by simp; omega, ?_⟩
        by_cases ht : t = 0x30
        · exact .inl (by simp only [List.length_cons]; have : ¬ 48 ≤ r.length := fun hl => h2 ⟨ht, hl⟩; omega)
        · exact .inr (by simpa using ht)

/-- An outbound buffer is accepted exactly when it has 64 bytes and the marker. -/
theorem decodeFrame_ok_iff (sink : Sink) (bytes : List Byte) :
    (∃ i, decodeFrame sink bytes = .ok i) ↔ bytes.length = 64 ∧ bytes[0]? = some 0x80 := by
  match bytes with
  | [] | [_] | [_, _] => simp [decodeFrame]
  | m :: c :: id :: p =>
    simp only [decodeFrame]
    split
    · next h => simp [h.1, h.2]
    · next h =>
      simp only [List.length_cons, List.getElem?_cons_zero, Option.some.injEq, reduceCtorEq, exists_false, false_iff]
      exact fun hc => h ⟨hc.2, by omega⟩

/-- An outbound buffer that is refused has no frame format. -/
theorem decodeFrame_error {sink : Sink} {bytes : List Byte} {e : DecodeError}
    (h : decodeFrame sink bytes = .error e) : e = .noFrameFormat := by
  unfold decodeFrame at h
  split at h
  · split at h <;> cases h; rfl
  · cases h; rfl

/-! ### A step -/

/-- Everything a step that answers a next state can have done. -/
theorem step_cases {s t : State} (h : step s = .next t) :
    (s.pending = [] ∧ t = s) ∨
    (∃ es, s.pending = .newSession :: es ∧ t = newSession { s with pending := es }) ∨
    (∃ w es i, s.pending = .issue w :: es ∧ decode w = .ok i ∧ exec i { s with pending := es } = .next t) ∨
    ∃ w es e, s.pending = .issue w :: es ∧ decode w = .error e ∧ reject e { s with pending := es } = .next t := by
  unfold step fetch at h
  cases hp : s.pending with
  | nil => rw [hp] at h; cases h; exact .inl ⟨rfl, rfl⟩
  | cons e es =>
    rw [hp] at h
    cases e with
    | newSession => cases h; exact .inr (.inl ⟨es, rfl, rfl⟩)
    | issue w =>
      simp only at h
      cases hd : decode w with
      | ok i => rw [hd] at h; exact .inr (.inr (.inl ⟨w, es, i, rfl, hd, h⟩))
      | error e => rw [hd] at h; exact .inr (.inr (.inr ⟨w, es, e, rfl, hd, h⟩))

end Sys2Proof.Machine
end

