-- ==== Sys2Proof/Tests/Slice0.lean ====
section
/-! SUPPORT. Tests: expected results from spec/95_test_vectors.md and the encodings of 30_encoding.md; then one named
witness per statement that has hypotheses. -/

namespace Sys2Proof.Tests

open Sys2Proof.Machine Sys2Proof.Claims

/-! ### Ill-formed terms are refused (R97) -/

theorem test_wf_refuses_length_65 : (Instr.decode (List.replicate 65 0) 65).wellFormed = false := by decide
theorem test_wf_refuses_false_length : (Instr.decode [0x30] 2).wellFormed = false := by decide
theorem test_wf_refuses_slot_3 : (Instr.encslot 3 ⟨1, 2, 3, 4, 5, 6⟩).wellFormed = false := by decide
theorem test_wf_refuses_build_62 : (Instr.build 0 0 (List.replicate 62 0)).wellFormed = false := by decide
theorem test_wf_refuses_send_62 : (Instr.send 0 (List.replicate 62 0)).wellFormed = false := by decide
theorem test_wf_refuses_report_48 : (Instr.rptStd (List.replicate 47 0)).wellFormed = false := by decide
theorem test_wf_refuses_report_65 : (Instr.rptStd (List.replicate 64 0)).wellFormed = false := by decide
theorem test_wf_refuses_frame_short : (Instr.frame 0 0x11 (List.replicate 60 0)).wellFormed = false := by decide
theorem test_wf_refuses_set_mode_as_frame :
    (Instr.frame 9 0x03 (0x30 :: List.replicate 60 0)).wellFormed = false := by decide
theorem test_wf_refuses_telemetry_on_as_frame :
    (Instr.frame 9 0x40 (0x01 :: List.replicate 60 0)).wellFormed = false := by decide
theorem test_wf_refuses_telemetry_off_as_frame :
    (Instr.frame 9 0x40 (0x00 :: List.replicate 60 0)).wellFormed = false := by decide
theorem test_wf_refuses_synth_short : (Instr.frameSynth 0 0 [1, 2]).wellFormed = false := by decide

/-! ### Words of the table, written out (R95, R96) -/

theorem test_word_decode : decodeTableWord 8 0b0000 = some (.decode [] 0) := by decide
theorem test_word_encslot : decodeTableWord 8 0b0001 = some (.encslot 0 ⟨0, 0, 0, 0, 0, 0⟩) := by decide
theorem test_word_build : decodeTableWord 8 0b0010 = some (.build 0 0 []) := by decide
theorem test_word_send : decodeTableWord 8 0b0011 = some (.send 0 []) := by decide
theorem test_word_enable : decodeTableWord 8 0b0100 = some .enable := by decide
theorem test_word_disable : decodeTableWord 8 0b0101 = some .disable := by decide
theorem test_word_syncyc : decodeTableWord 8 0b0110 = some (.syncyc ⟨0, 0, 0, 0, 0, 0⟩) := by decide
theorem test_word_reserved : decodeTableWord 8 0b0111 = none ∧ decodeTableWord 8 0b1111 = none := by decide
theorem test_word_rpt_std :
    decodeTableWord 32 0b00110000_00010010_00000000_00000001
      = some (.rptStd (0x12 :: 0x00 :: 0x01 :: List.replicate 60 0)) := by decide
theorem test_word_frame :
    decodeTableWord 32 0b10000000_00000101_00010001_00100010
      = some (.frame 0x05 0x11 (0x22 :: List.replicate 60 0)) := by decide
theorem test_word_set_mode_std :
    decodeTableWord 32 0b10000000_00000101_00000011_00110000 = some (.frameSetModeStd 5) := by decide
theorem test_word_telemetry_on :
    decodeTableWord 32 0b10000000_00000101_01000000_00000001 = some (.frameTelemetryOn 5) := by decide
theorem test_word_telemetry_off :
    decodeTableWord 32 0b10000000_00000101_01000000_00000000 = some (.frameTelemetryOff 5) := by decide
theorem test_word_synth :
    decode (.frame .pairing (tableBuffer 0b10000000_00000101_00010001_00100010))
      = .ok (.frameSynth 0x05 0x11 (0x22 :: List.replicate 60 0)) := rfl

/-! ### Small states and vectors -/

/-- The state after an outcome. -/
def after (o : Host.Outcome State Fault Refusal) : State :=
  match o with
  | .next s => s
  | _ => State.reset

/-- The reset state with a counter, a ready mark and given answers of the transport. -/
def session (ctr : BitVec 8) (ready : Bool) (oks : List Bool) : State :=
  { State.reset with ctr := ctr, ready := ready, oks := oks }

/-- Vector D1. -/
def d1 : List Byte :=
  [0x30, 0x00, 0x00, 0x00, 0x00, 0x00, 0x00, 0x00, 0x00, 0x00, 0x00, 0x00, 0x00, 0x01, 0x00, 0x02] ++
  [0x00, 0x03, 0x00, 0x04, 0x00, 0x05, 0x00, 0x06, 0x00, 0xFF, 0xFF, 0xFE, 0xFF, 0x00, 0x80, 0xFF] ++
  [0x7F, 0x00, 0x01, 0x00, 0xFF, 0x34, 0x12, 0xCC, 0xED, 0x00, 0x00, 0x64, 0x00, 0x9C, 0xFF, 0x70] ++
  [0x11, 0x00, 0x00, 0x00, 0x00, 0x00, 0x00, 0x00, 0x00, 0x00, 0x00, 0x00, 0x00, 0x00, 0x00, 0x00]

/-- A frame's first four bytes and 60 zeros. -/
def short (a b c d : Byte) : List Byte := [a, b, c, d] ++ List.replicate 60 0

/-! ### DECODE: D1 (also at length 49, D2) and D3 -/

theorem test_decode_d1 :
    (after (exec (.decode d1 64) State.reset)).samples =
      some ⟨⟨1, 2, 3, 4, 5, 6⟩, ⟨-1, -2, -32768, 32767, 256, -256⟩, ⟨4660, -4660, 0, 100, -100, 4464⟩⟩ ∧
    (after (exec (.decode (d1.take 49) 49) State.reset)).status = some .ok := by decide

theorem test_decode_short_or_other_tag :
    (after (exec (.decode (d1.take 48) 48) State.reset)).status = some .notTelemetry ∧
    (after (exec (.decode (0x31 :: d1.tail) 64) State.reset)).status = some .notTelemetry := by decide

/-! ### ENCSLOT: E2 (bytes EE before) and E4 -/

theorem test_encslot_e2 :
    (encSlot 13 (Memory.writeBytes [] 24 (List.replicate 14 0xEE)) 1 ⟨-1, 32767, -32768, 32768, 70000, -70000⟩).slice 24 14
      = [0xEE, 0xFF, 0xFF, 0xFF, 0x7F, 0x00, 0x80, 0x00, 0x80, 0x70, 0x11, 0x90, 0xEE, 0xEE] := by decide

theorem test_encslot_e4 :
    (encSlot 28 [] 2 ⟨1, 2, 3, 4, 5, -2⟩).slice 52 12 = [1, 0, 2, 0, 3, 0, 4, 0, 5, 0, 0xFE, 0xFF] ∧
    (encSlot 28 [] 2 ⟨1, 2, 3, 4, 5, -2⟩).wf = true := by decide

/-! ### BUILD: B1 and B4 -/

theorem test_build_b1 :
    (after (exec (.build 0x07 0x03 [0x30]) State.reset)).frame = some (short 0x80 0x07 0x03 0x30) := by decide

theorem test_build_b4 :
    after (exec (.build 1 2 (List.replicate 62 7)) State.reset) = { State.reset with status := some .badOperand } := by
  decide

/-! ### SEND: F2 and F3 -/

theorem test_send_f2 :
    (after (exec (.send 0x03 [0x30]) (session 255 false [true]))).tx = [⟨.transport, short 0x80 0xFF 0x03 0x30⟩] ∧
    (after (exec (.send 0x03 [0x30]) (session 255 false [true]))).ctr = 0 := by decide

theorem test_send_f3 :
    (after (exec (.send 0x03 [0x30]) (session 9 false [false]))).status = some .ioError ∧
    (after (exec (.send 0x03 [0x30]) (session 9 false [false]))).ctr = 10 := by decide

/-! ### ENABLE: F7 and F5 with F6 -/

theorem test_enable_f7 :
    (after (exec .enable (session 255 false [true, true]))).tx =
      [⟨.transport, short 0x80 0xFF 0x03 0x30⟩, ⟨.transport, short 0x80 0x00 0x40 0x01⟩] ∧
    (after (exec .enable (session 255 false [true, true]))).ctr = 1 ∧
    (after (exec .enable (session 255 false [true, true]))).ready = true := by decide

theorem test_enable_f5_f6 :
    (after (exec .enable (session 0 true [true, false]))).status = some (.handshakeFailed .second) ∧
    (after (exec .enable (session 0 true [true, false]))).ready = false ∧
    (after (exec .enable (session 0 true [false]))).tx = [⟨.transport, short 0x80 0x00 0x03 0x30⟩] ∧
    (after (exec .enable (session 0 true [false]))).ctr = 1 := by decide

/-! ### DISABLE: F8 -/

theorem test_disable_f8 :
    (after (exec .disable (session 2 true [false]))) =
      { State.reset with ctr := 3, log := 1, status := some .ok,
                         tx := [⟨.transport, short 0x80 0x02 0x40 0x00⟩] } := by decide

/-! ### SYNCYC: Y1, and the third cycle of Y2 with Y4's counter, at the example parameters of the vectors -/

theorem test_syncyc_y1 :
    (cycled 13 0x30 [] ⟨1, 2, 3, 4, 5, 6⟩ State.reset).frm.slice 12 14 = [0, 1, 0, 2, 0, 3, 0, 4, 0, 5, 0, 6, 0, 0] ∧
    (cycled 13 0x30 [] ⟨1, 2, 3, 4, 5, 6⟩ State.reset).slot = 1 ∧
    (cycled 13 0x30 [] ⟨1, 2, 3, 4, 5, 6⟩ State.reset).tx = [] := by decide

theorem test_syncyc_dispatch :
    cycled 13 0x30 [(4, 0xAB)] ⟨13, 14, 15, 16, 17, 18⟩ { State.reset with slot := 2, ctr := 255, frm := [(36, 9)] } =
      { State.reset with
        cycle := 1, status := some .ok,
        tx := [⟨.pairing, [0x80, 0xFF, 0x30, 0, 0xAB] ++ List.replicate 31 0 ++
          [9, 13, 0, 14, 0, 15, 0, 16, 0, 17, 0, 18, 0] ++ List.replicate 15 0⟩] } := by decide

/-! ### Wire patterns: R81, R91, R92 -/

theorem test_rpt_std : exec (.rptStd d1.tail) State.reset = exec (.decode d1 64) State.reset := rfl

theorem test_frame_rows :
    (after (exec (.frame 5 0x11 [0x22]) State.reset)).frame = some (short 0x80 5 0x11 0x22) ∧
    (after (exec (.frameSetModeStd 5) State.reset)).frame = some (short 0x80 5 0x03 0x30) ∧
    (after (exec (.frameTelemetryOn 5) State.reset)).frame = some (short 0x80 5 0x40 0x01) ∧
    (after (exec (.frameTelemetryOff 5) State.reset)).frame = some (short 0x80 5 0x40 0x00) ∧
    (after (exec (.frameSynth 5 0x30 [7]) State.reset)).frame = some (short 0x80 5 0x30 7) := by decide

/-! ### Steps -/

theorem test_step_runs_word : (after (step (State.reset.withFetchWord 8 2))).frame = some (short 0x80 0 0 0) := by decide

theorem test_step_bad_op : (after (step (State.reset.withFetchWord 8 9))).status = some .badOp := by decide

/-! ### Witnesses: the hypotheses of each statement can be met together -/

/-- A state with one event issued. -/
def issued (e : HostEvent) : State := { State.reset with pending := [e] }

theorem witness_DecodeEncodeRoundTrip :
    (Instr.frame 1 2 (List.replicate 61 7)).wellFormed = true ∧ (Instr.encslot 2 ⟨1, 2, 3, 4, 5, 6⟩).wellFormed = true ∧
    (Instr.rptStd (List.replicate 48 0)).wellFormed = true ∧ (Instr.send 3 (List.replicate 61 1)).wellFormed = true := by
  decide

theorem witness_BuffersHaveOneReading :
    (∃ (w : Word) (i : Instr), decode w = .ok i ∧ ∀ c, w ≠ .command c) ∧
    ∃ c : CommandWord, 7 ≤ c.op.toNat :=
  ⟨⟨.report (0x30 :: List.replicate 48 0), _, rfl, fun _ h => nomatch h⟩, CommandWord.ofOp 7, by decide⟩

theorem witness_StepRunsTheDecodedInstruction :
    (∃ (s : State) (w : Word) (es : List HostEvent) (i : Instr), s.pending = .issue w :: es ∧ decode w = .ok i) ∧
    ∃ s : State, s.pending = [] :=
  ⟨⟨issued (.issue (.command (CommandWord.ofOp 4))), _, _, _, rfl, rfl⟩, State.reset, rfl⟩

theorem witness_ReservedOpChangesNothing :
    ∃ (s : State) (c : CommandWord) (es : List HostEvent), s.pending = .issue (.command c) :: es ∧ 7 ≤ c.op.toNat :=
  ⟨issued (.issue (.command (CommandWord.ofOp 7))), _, _, rfl, by decide⟩

theorem witness_UnusableReportIsIgnored :
    (∃ (s : State) (rx : List Byte) (es : List HostEvent), s.pending = .issue (.report rx) :: es ∧ rx.length ≤ 64 ∧
      (rx.length < 49 ∨ rx[0]? ≠ some 0x30)) ∧
    (∃ (s : State) (rx : List Byte) (es : List HostEvent), s.pending = .issue (.report rx) :: es ∧ rx.length = 64 ∧
      (rx.length < 49 ∨ rx[0]? ≠ some 0x30)) ∧
    ∃ (s : State) (rx : List Byte) (es : List HostEvent), s.pending = .issue (.report rx) :: es ∧ 64 < rx.length :=
  ⟨⟨issued (.issue (.report (0x30 :: List.replicate 47 0))), _, _, rfl, by decide, by decide⟩,
    ⟨issued (.issue (.report (List.replicate 64 0x21))), _, _, rfl, by decide, by decide⟩,
    issued (.issue (.report (List.replicate 65 0x30))), _, _, rfl, by decide⟩

theorem witness_OnlyAFormlessFrameStops :
    ∃ s : State, step s = .refused .noWireFormat ∧ ∃ sink bytes es,
      s.pending = .issue (.frame sink bytes) :: es ∧ ¬(bytes.length = 64 ∧ bytes[0]? = some 0x80) :=
  ⟨issued (.issue (.frame .transport (List.replicate 64 0x81))), rfl, _, _, _, rfl, by decide⟩

theorem witness_NewSessionIsReset : ∃ (s : State) (es : List HostEvent), s.pending = .newSession :: es :=
  ⟨issued .newSession, _, rfl⟩

/-- A state in the middle of a synthetic frame, about to run a SYNCYC. -/
def midFrame : State :=
  { State.reset with slot := 1, cycle := 1, frm := [(40, 7)], pending := [.issue (.command (CommandWord.ofOp 6))] }

theorem witness_StepKeepsInvariant : Inv midFrame ∧ ∃ t, step midFrame = .next t :=
  ⟨⟨rfl, ⟨rfl, rfl⟩, rfl, fun n e h => by simp [midFrame, State.reset] at h⟩, _, rfl⟩

theorem witness_EmittedCountersRunOn : ∃ t, exec .enable (session 255 false [true, true]) = .next t := ⟨_, rfl⟩

theorem witness_WritersOfEachStateItem :
    ∃ t, exec (.frameSetModeStd 1) (session 3 true []) = .next t ∧ ¬ Sends (.frameSetModeStd 1) ∧
      Instr.frameSetModeStd 1 ≠ .enable ∧ Instr.frameSetModeStd 1 ≠ .disable ∧
      (∀ k v, Instr.frameSetModeStd 1 ≠ .encslot k v) ∧ ∀ v, Instr.frameSetModeStd 1 ≠ .syncyc v :=
  ⟨_, rfl, by simp [Sends], by simp, by simp, by simp, by simp⟩

theorem witness_DecodeDeliversThreeSamples_none :
    ∃ t, exec (.decode [] 0) State.reset = .next t ∧ t.status ≠ some .ok := ⟨_, rfl, by decide⟩

theorem witness_PortsCarryOnlyValidResults :
    (∃ t, exec (.decode d1 64) State.reset = .next t ∧ t.samples ≠ none) ∧
    ∃ t, exec (.build 1 2 []) State.reset = .next t ∧ t.frame ≠ none :=
  ⟨⟨_, rfl, by decide⟩, _, rfl, by decide⟩

theorem witness_EnableTakesOneAnswerPerSend :
    (∃ t, exec .enable (session 0 false [true, false, true]) = .next t) ∧
    ∃ t, exec .enable (session 0 false [false]) = .next t := ⟨⟨_, rfl⟩, _, rfl⟩

theorem witness_ReadyIsReadByNothing : ∃ t, exec .disable (session 3 true [false]) = .next t := ⟨_, rfl⟩

theorem witness_DecodeDeliversThreeSamples :
    (49 ≤ 49 ∧ 49 ≤ 64 ∧ 49 ≤ (d1.take 49).length ∧ (d1.take 49)[0]? = some 0x30) ∧
    49 ≤ 64 ∧ 64 ≤ 64 ∧ 64 ≤ d1.length ∧ d1[0]? = some 0x30 := by decide

theorem witness_DecodeIgnoresNonTelemetry :
    (∃ t, exec (.decode (d1.take 48) 48) State.reset = .next t ∧ t.status = some .notTelemetry) ∧
    ∃ t, exec (.decode (0x31 :: d1.tail) 64) State.reset = .next t ∧ t.status = some .notTelemetry :=
  ⟨⟨_, rfl, by decide⟩, _, rfl, by decide⟩

theorem witness_DecodeNamesFirstMissingSample :
    (49 ≤ 49 ∧ 49 ≤ 64 ∧ (d1.take 24)[0]? = some 0x30 ∧ (d1.take 24).length < 25 + 12 * (0 : Fin 3).val ∧
      ∀ k < (0 : Fin 3).val, 25 + 12 * k ≤ (d1.take 24).length) ∧
    (49 ≤ 64 ∧ 64 ≤ 64 ∧ (d1.take 48)[0]? = some 0x30 ∧ (d1.take 48).length < 25 + 12 * (2 : Fin 3).val ∧
      ∀ k < (2 : Fin 3).val, 25 + 12 * k ≤ (d1.take 48).length) := by decide

theorem witness_DecodeReadsOnlyTagAndMotion :
    ∃ rx rx' : List Byte, rx ≠ rx' ∧ rx.length = rx'.length ∧ rx[0]? = rx'[0]? ∧
      ∀ a, 13 ≤ a → a < 49 → rx[a]? = rx'[a]? := by
  refine ⟨d1, d1.set 12 0xA5, by decide, by decide, by decide, fun a h _ => ?_⟩
  rw [List.getElem?_set_ne (by omega)]

theorem witness_DecodeCommutes :
    ∃ t u, exec (.decode d1 64) State.reset = .next t ∧ exec .enable State.reset = .next u := ⟨_, _, rfl, rfl⟩

theorem witness_EncslotWritesItsSlotOnly : (0 : BitVec 2) ≠ 3 ∧ (2 : BitVec 2) ≠ 3 ∧ ¬ InSlot 2 0 := by
  refine ⟨by decide, by decide, ?_⟩
  have := motionBase_bounds
  unfold InSlot; omega

/-- A report that carries a slot's bytes as its last sample. -/
def embedded (slot : Nat) (m : Memory) : List Byte :=
  (0x30 :: List.replicate 36 0) ++ m.slice (motionBase + 12 * slot) 12

theorem witness_SlotRoundTripsThroughDecode :
    ∃ t, exec (.encslot 1 ⟨-1, 32767, -32768, 32768, 70000, 0⟩) State.reset = .next t ∧ (1 : BitVec 2) ≠ 3 ∧
      49 ≤ (embedded 1 t.frm).length ∧ (embedded 1 t.frm)[0]? = some 0x30 ∧
      ∀ k < 12, (embedded 1 t.frm)[13 + 12 * 2 + k]? = some (t.frm.read (motionBase + 12 * (1 : BitVec 2).toNat + k)) := by
  refine ⟨_, rfl, by decide, by simp [embedded], rfl, fun k hk => ?_⟩
  unfold embedded
  rw [List.getElem?_append_right (by simp only [List.length_cons, List.length_replicate]; omega)]
  simp only [List.length_cons, List.length_replicate]
  rw [show 13 + 12 * 2 + k - (36 + 1) = k by omega, Memory.getElem?_slice _ _ _ _ hk]; rfl

theorem witness_OperandsMatterModulo65536 :
    List.Forall₂ (fun x y : Int => x % 65536 = y % 65536)
      (Sample.toList ⟨70000, -1, 0, 32768, 65536, -65537⟩) (Sample.toList ⟨4464, 65535, 0, -32768, 0, 131071⟩) := by
  simp [Sample.toList]

theorem witness_SecondEncslotStands :
    FrmCanonical midFrame ∧ ∃ t, exec (.encslot 2 ⟨1, 2, 3, 4, 5, 6⟩) midFrame = .next t := ⟨rfl, _, rfl⟩

theorem witness_BadOperandsChangeNothing :
    64 < 65 ∧ 61 < (List.replicate 62 (0 : Byte)).length := by decide

theorem witness_BuildGivesItsFrame :
    ([] : List Byte).length ≤ 61 ∧ (List.replicate 61 (1 : Byte)).length ≤ 61 := by decide

theorem witness_BuildTellsFramesApart :
    ∃ (c id : Byte) (p p' : List Byte), p.length ≤ 61 ∧ p.length = p'.length ∧ p'.length ≤ 60 ∧
      exec (.build c id p) State.reset = exec (.build c id p') State.reset :=
  ⟨7, 3, List.replicate 60 1, List.replicate 60 1, by decide, rfl, by decide, rfl⟩

theorem witness_SendStampsAndAdvances : ([] : List Byte).length ≤ 61 ∧ (List.replicate 61 (1 : Byte)).length ≤ 61 := by
  decide

theorem witness_RetriedSendDiffersInCounter :
    ∃ t u, [(0x30 : Byte)].length ≤ 61 ∧ exec (.send 3 [0x30]) (session 255 false [false, true]) = .next t ∧
      exec (.send 3 [0x30]) t = .next u := ⟨_, _, by decide, rfl, rfl⟩

theorem witness_SyncycFillsItsSlot : midFrame.slot ≠ 2 ∧ State.reset.slot ≠ 2 ∧ ¬ InSlot 0 63 := by
  refine ⟨by decide, by decide, ?_⟩
  have := motionBase_bounds
  unfold InSlot; omega

/-- A state whose next cycle dispatches. -/
def lastSlot : State := { midFrame with slot := 2, cycle := 2 }

theorem witness_SyncycDispatchesInSlotTwo : lastSlot.slot = 2 ∧ ∃ a, 3 ≤ a ∧ a < 64 ∧ ¬ InSlot 2 a := by
  have := motionBase_bounds
  refine ⟨rfl, 3, by omega, by omega, ?_⟩
  unfold InSlot; omega

theorem witness_FrmHeaderIsNeverEmitted :
    ∃ (t u : State) (m : Memory), m ≠ lastSlot.frm ∧ (∀ a, 3 ≤ a → m.read a = lastSlot.frm.read a) ∧
      exec (.syncyc ⟨1, 2, 3, 4, 5, 6⟩) lastSlot = .next t ∧
      exec (.syncyc ⟨1, 2, 3, 4, 5, 6⟩) { lastSlot with frm := m } = .next u := by
  refine ⟨_, _, [(2, 9), (40, 7)], by decide, fun a ha => ?_, rfl, rfl⟩
  show (if 2 = a then 9 else Memory.read [(40, 7)] a) = Memory.read [(40, 7)] a
  rw [if_neg (by omega)]

theorem witness_ThreeCyclesMakeOneFrame :
    State.reset.slot = 0 ∧ (∀ a, State.reset.frm.read a = 0) ∧
      ∃ a, 3 ≤ a ∧ a < 64 ∧ ¬ (motionBase ≤ a ∧ a < motionBase + 36) := by
  have := motionBase_bounds
  by_cases h : motionBase = 3
  · exact ⟨rfl, fun _ => rfl, 63, by omega, by omega, by omega⟩
  · exact ⟨rfl, fun _ => rfl, 3, by omega, by omega, by omega⟩

theorem witness_StandardReportDeliversSamples :
    48 ≤ (d1.tail.take 48).length ∧ d1.tail.length ≤ 63 ∧ ([] : List Byte).length < 48 ∧
      63 < (List.replicate 64 (0 : Byte)).length := by decide

theorem witness_FrameRowsGiveTheirFrame :
    (List.replicate 61 (1 : Byte)).length ≤ 61 ∧ 61 < (List.replicate 62 (1 : Byte)).length := by decide

theorem witness_EmittedFramesAreTableRows :
    (∃ t e, exec .enable (session 0 false [true, true]) = .next t ∧ t.tx[0]? = some e) ∧
    (∃ t e, exec .enable (session 0 false [true, true]) = .next t ∧ t.tx[0 + 1]? = some e) ∧
    (∃ t e, exec .disable (session 0 false []) = .next t ∧ t.tx[0]? = some e) ∧
    ∃ t e, exec (.syncyc ⟨1, 2, 3, 4, 5, 6⟩) lastSlot = .next t ∧ t.tx[0]? = some e := by
  refine ⟨⟨_, _, rfl, rfl⟩, ⟨_, _, rfl, rfl⟩, ⟨_, ⟨.transport, short 0x80 0 0x40 0⟩, rfl, ?_⟩, _, _, rfl, rfl⟩
  simp only [disabled]
  cases answer (session 0 false []) 0 <;> rfl

end Sys2Proof.Tests
end

/-! SUPPORT and PROOFS. The statements of 10_state.md: what each instruction can do to the state, said once
(`exec_effect`); what `READY` and the header of `FRM` never reach; reset and session creation. -/

namespace Sys2Proof.Machine

/-! ### What an instruction can do -/

/-- The instructions whose `OK` carries samples (R21, R110; log entry 9). -/
def DeliversSamples (i : Instr) : Prop := (∃ rx len, i = .decode rx len) ∨ ∃ rest, i = .rptStd rest

/-- The instructions whose `OK` carries a frame (R21, R150; log entry 9). -/
def DeliversFrame (i : Instr) : Prop :=
  (∃ c id p, i = .build c id p) ∨ (∃ c id p, i = .frame c id p) ∨ (∃ c id p, i = .frameSynth c id p) ∨
    ∃ c, i = .frameSetModeStd c ∨ i = .frameTelemetryOn c ∨ i = .frameTelemetryOff c

/-- The instructions that can end in an outcome other than `OK` with no effect: DECODE and RPT.STD by their report, the
others by an operand out of range (R97). -/
def MayRefuse (i : Instr) : Prop :=
  DeliversSamples i ∨ DeliversFrame i ∨ (∃ slot v, i = .encslot slot v) ∨ ∃ id p, i = .send id p

/-- `FRM` after the writes of a cycle, before its dispatch (R180, R184). -/
def cycleFrm (v : Sample) (s : State) : Memory :=
  encSlot motionBase (s.frm.writeAll (auxWrites s.cycle)) s.slot.val v

/-- Everything an instruction can do to the state `s`, by the way it ends. -/
inductive ExecEffect (s : State) : Instr → State → Prop
  | code {i : Instr} {st : Status} (hi : MayRefuse i) (hst : st ≠ .ok) : ExecEffect s i (finish st s)
  | samples {i : Instr} (hi : DeliversSamples i) (r : Samples) : ExecEffect s i (finishSamples r s)
  | frame {i : Instr} (hi : DeliversFrame i) {c id : Byte} {p : List Byte} (hp : p.length ≤ 61) :
      ExecEffect s i (finishFrame (build c id p) s)
  | encslot {slot : BitVec 2} {v : Sample} (hslot : slot ≠ 3) :
      ExecEffect s (.encslot slot v) (finish .ok (setFrm (encSlot motionBase s.frm slot.toNat v) s))
  | send {id : Byte} {p : List Byte} (hp : p.length ≤ 61) :
      ExecEffect s (.send id p) (finish (sendStatus (answer s 0)) (sent id p s))
  | enableOk (h0 : answer s 0 = true) (h1 : answer s 1 = true) :
      ExecEffect s .enable (finish .ok (setReady true (sent 0x40 [0x01] (sent 0x03 [0x30] s))))
  | enableSecondFailed (h0 : answer s 0 = true) (h1 : answer s 1 = false) :
      ExecEffect s .enable
        (finish (.handshakeFailed .second) (setReady false (sent 0x40 [0x01] (sent 0x03 [0x30] s))))
  | enableFirstFailed (h0 : answer s 0 = false) :
      ExecEffect s .enable (finish (.handshakeFailed .first) (setReady false (sent 0x03 [0x30] s)))
  | disableOk (h0 : answer s 0 = true) :
      ExecEffect s .disable (finish .ok (setReady false (sent 0x40 [0x00] s)))
  | disableFailed (h0 : answer s 0 = false) :
      ExecEffect s .disable (finish .ok (setReady false (pulse (sent 0x40 [0x00] s))))
  | fill {v : Sample} (hslot : s.slot ≠ 2) :
      ExecEffect s (.syncyc v) (finish .ok (advance (setFrm (cycleFrm v s) s)))
  | dispatch {v : Sample} (hslot : s.slot = 2) :
      ExecEffect s (.syncyc v)
        (finish .ok (advance (dispatch Config.synthId (setFrm (cycleFrm v s) s))))

/-- The end of a DECODE, whatever the report (R110, R111). -/
theorem finishDecode_effect {i : Instr} (hi : DeliversSamples i) (r : DecodeResult) (s : State) :
    ExecEffect s i (finishDecode r s) := by
  cases r with
  | samples x => exact .samples hi x
  | notTelemetry => exact .code (.inl hi) (by simp)
  | malformed k => exact .code (.inl hi) (by simp)

/-- The end of a BUILD, whatever the payload (R150, R153). -/
theorem buildOn_effect {i : Instr} (hi : DeliversFrame i) (c id : Byte) (p : List Byte) (s : State) :
    ExecEffect s i (buildOn c id p s) := by
  unfold buildOn
  split
  · exact .code (.inr (.inl hi)) (by simp)
  · exact .frame hi (by omega)

theorem enabled_effect (s : State) : ExecEffect s .enable (enabled s) := by
  cases h0 : answer s 0 with
  | false => simpa [enabled, h0] using ExecEffect.enableFirstFailed h0
  | true =>
    cases h1 : answer s 1 with
    | false => simpa [enabled, h0, h1] using ExecEffect.enableSecondFailed h0 h1
    | true => simpa [enabled, h0, h1] using ExecEffect.enableOk h0 h1

theorem disabled_effect (s : State) : ExecEffect s .disable (disabled s) := by
  cases h0 : answer s 0 with
  | false => simpa [disabled, h0] using ExecEffect.disableFailed h0
  | true => simpa [disabled, h0] using ExecEffect.disableOk h0

theorem cycled_effect (v : Sample) (s : State) :
    ExecEffect s (.syncyc v) (cycled motionBase Config.synthId (auxWrites s.cycle) v s) := by
  simp only [cycled]
  split
  · next h => exact .dispatch h
  · next h => exact .fill h

/-- Every next state of `exec` is one of the effects. -/
theorem exec_effect {i : Instr} {s t : State} (h : exec i s = .next t) : ExecEffect s i t := by
  cases i with
  | decode rx len =>
    simp only [exec, execDecode] at h
    split at h <;> cases h
    · exact .code (.inl (.inl ⟨rx, len, rfl⟩)) (by simp)
    · exact finishDecode_effect (.inl ⟨rx, len, rfl⟩) _ s
  | rptStd rest =>
    simp only [exec, execRptStd] at h
    split at h <;> cases h
    · exact .code (.inl (.inr ⟨rest, rfl⟩)) (by simp)
    · exact finishDecode_effect (.inr ⟨rest, rfl⟩) _ s
  | encslot slot v =>
    simp only [exec, execEncslot] at h
    split at h <;> cases h
    · exact .code (.inr (.inr (.inl ⟨slot, v, rfl⟩))) (by simp)
    · exact .encslot ‹_›
  | send id p =>
    simp only [exec, execSend] at h
    split at h <;> cases h
    · exact .code (.inr (.inr (.inr ⟨id, p, rfl⟩))) (by simp)
    · exact .send (by omega)
  | enable => cases h; exact enabled_effect s
  | disable => cases h; exact disabled_effect s
  | syncyc v => cases h; exact cycled_effect v s
  | build c id p => cases h; exact buildOn_effect (.inl ⟨c, id, p, rfl⟩) c id p s
  | frame c id p => cases h; exact buildOn_effect (.inr (.inl ⟨c, id, p, rfl⟩)) c id p s
  | frameSynth c id p => cases h; exact buildOn_effect (.inr (.inr (.inl ⟨c, id, p, rfl⟩))) c id p s
  | frameSetModeStd c => cases h; exact buildOn_effect (.inr (.inr (.inr ⟨c, .inl rfl⟩))) c _ _ s
  | frameTelemetryOn c => cases h; exact buildOn_effect (.inr (.inr (.inr ⟨c, .inr (.inl rfl)⟩))) c _ _ s
  | frameTelemetryOff c => cases h; exact buildOn_effect (.inr (.inr (.inr ⟨c, .inr (.inr rfl)⟩))) c _ _ s

/-! ### What a dispatch changes -/

section DispatchFields

variable (id : Byte) (s : State)

@[simp] theorem dispatch_slot : (dispatch id s).slot = s.slot := rfl
@[simp] theorem dispatch_ready : (dispatch id s).ready = s.ready := rfl
@[simp] theorem dispatch_log : (dispatch id s).log = s.log := rfl
@[simp] theorem dispatch_pending : (dispatch id s).pending = s.pending := rfl

end DispatchFields

/-! ### `READY` is not read (R27) -/

section ReadyCommutes

variable (b : Bool) (s : State)

@[simp] theorem answer_setReady (k : Nat) : answer (setReady b s) k = answer s k := rfl

@[simp] theorem setReady_setReady (c : Bool) : setReady c (setReady b s) = setReady c s := rfl

theorem pulse_setReady : pulse (setReady b s) = setReady b (pulse s) := rfl

theorem sent_setReady (id : Byte) (p : List Byte) : sent id p (setReady b s) = setReady b (sent id p s) := by
  simp only [sent_eq]; rfl

theorem finishDecode_setReady (r : DecodeResult) :
    finishDecode r (setReady b s) = setReady b (finishDecode r s) := by
  cases r <;> rfl

theorem buildOn_setReady (c id : Byte) (p : List Byte) :
    buildOn c id p (setReady b s) = setReady b (buildOn c id p s) := by
  unfold buildOn; split <;> rfl

theorem cycled_setReady (base : Nat) (id : Byte) (aux : List (Nat × Byte)) (v : Sample) :
    cycled base id aux v (setReady b s) = setReady b (cycled base id aux v s) := by
  by_cases h : s.slot = 2
  · rw [cycled_dispatch _ _ _ _ h, cycled_dispatch _ _ _ _ (s := setReady b s) h]; rfl
  · rw [cycled_fill _ _ _ _ h, cycled_fill _ _ _ _ (s := setReady b s) h]; rfl

/-- ENABLE sets `READY` on every path, so nothing of the old value is left. -/
theorem enabled_setReady : enabled (setReady b s) = enabled s := by
  simp [enabled, sent_setReady]

/-- DISABLE clears `READY`, so nothing of the old value is left. -/
theorem disabled_setReady : disabled (setReady b s) = disabled s := by
  cases h : answer s 0 <;> simp [disabled, sent_setReady, pulse_setReady, h]

end ReadyCommutes

/-- An instruction other than ENABLE and DISABLE carries `READY` along (R27). -/
theorem exec_setReady {i : Instr} {s t : State} (b : Bool) (hen : i ≠ .enable) (hdis : i ≠ .disable)
    (h : exec i s = .next t) : exec i (setReady b s) = .next (setReady b t) := by
  cases i with
  | enable => exact absurd rfl hen
  | disable => exact absurd rfl hdis
  | decode rx len =>
    simp only [exec, execDecode, finishDecode_setReady] at h ⊢
    split at h <;> cases h
    · exact if_pos ‹_›
    · exact if_neg ‹_›
  | rptStd rest =>
    simp only [exec, execRptStd, finishDecode_setReady] at h ⊢
    split at h <;> cases h
    · exact if_pos ‹_›
    · exact if_neg ‹_›
  | encslot slot v =>
    simp only [exec, execEncslot] at h ⊢
    split at h <;> cases h
    · exact if_pos ‹_›
    · exact if_neg ‹_›
  | send id p =>
    simp only [exec, execSend, sent_setReady] at h ⊢
    split at h <;> cases h
    · exact if_pos ‹_›
    · exact if_neg ‹_›
  | syncyc v => cases h; exact congrArg Host.Outcome.next (cycled_setReady b s ..)
  | build | frame | frameSetModeStd | frameTelemetryOn | frameTelemetryOff | frameSynth =>
    cases h; exact congrArg Host.Outcome.next (buildOn_setReady b s ..)

/-! ### The answers left after ENABLE (R31, R159) -/

@[simp] theorem answer_finish (st : Status) (s : State) (k : Nat) : answer (finish st s) k = answer s k := rfl

/-- Each send of ENABLE has used one answer. -/
theorem answer_enabled (s : State) (k : Nat) :
    answer (enabled s) k = answer s (if answer s 0 then k + 2 else k + 1) := by
  cases h0 : answer s 0 with
  | false => simp [enabled, h0]
  | true => cases h1 : answer s 1 <;> simp [enabled, h0, h1]

/-! ### The bytes a dispatch reads (R26, R183) -/

theorem Memory.slice_congr {m m' : Memory} {a : Nat} (n : Nat) (h : ∀ x, a ≤ x → m.read x = m'.read x) :
    m.slice a n = m'.slice a n :=
  List.map_congr_left fun k _ => h (a + k) (Nat.le_add_right a k)

theorem read_cycleFrm_congr {s : State} {m : Memory} {a : Nat} (v : Sample) (h : m.read a = s.frm.read a) :
    (cycleFrm v { s with frm := m }).read a = (cycleFrm v s).read a := by
  simp only [cycleFrm, read_encSlot, Memory.read_writeAll, h]

/-- The frames after a cycle: one more exactly when slot 2 was filled (R182, R183). -/
theorem tx_of_exec_syncyc {v : Sample} {s t : State} (h : exec (.syncyc v) s = .next t) :
    t.tx = if s.slot = 2
      then s.tx ++ [⟨.pairing, build s.ctr Config.synthId ((cycleFrm v s).slice 3 61)⟩] else s.tx := by
  cases h
  by_cases hslot : s.slot = 2
  · rw [cycled_dispatch _ _ _ _ hslot, if_pos hslot]; simp [cycleFrm, hslot]
  · rw [cycled_fill _ _ _ _ hslot, if_neg hslot]

/-! ### Session creation (R35) -/

/-- A step on a session creation. -/
theorem step_newSession {s : State} {es : List HostEvent} (h : s.pending = .newSession :: es) :
    step s = .next (newSession { s with pending := es }) := by
  simp only [step, fetch, h]

end Sys2Proof.Machine

namespace Sys2Proof.Proofs

open Sys2Proof Sys2Proof.Machine Sys2Proof.Claims

/-- Settles O13: in each effect, a field that changes belongs to an instruction the spec names. -/
theorem writersOfEachStateItem : Obligations.WritersOfEachStateItem := by
  intro i s t h
  cases exec_effect h with
  | code | samples | frame => simp
  | encslot => simp
  | send => simp [Sends]
  | enableOk | enableSecondFailed | enableFirstFailed => simp [Sends]
  | disableOk | disableFailed => simp [Sends]
  | fill | dispatch => simp [Sends]

/-- Settles O14: only `finishSamples` and `finishFrame` put a value on a result port, and each says `OK`. -/
theorem portsCarryOnlyValidResults : Obligations.PortsCarryOnlyValidResults := by
  intro i s t h
  cases exec_effect h with
  | samples hi => exact ⟨by simp, fun _ => ⟨rfl, hi⟩, by simp⟩
  | frame hi => exact ⟨by simp, by simp, fun _ => ⟨rfl, hi⟩⟩
  | code | encslot | send | enableOk | enableSecondFailed | enableFirstFailed | disableOk | disableFailed
  | fill | dispatch => simp

/-- Settles O15: ENABLE and DISABLE overwrite `READY`, every other instruction carries it along. -/
theorem readyIsReadByNothing : Obligations.ReadyIsReadByNothing := by
  intro i s t b h
  by_cases hen : i = .enable
  · subst hen
    exact ⟨t.ready, (congrArg Host.Outcome.next (enabled_setReady b s)).trans h⟩
  by_cases hdis : i = .disable
  · subst hdis
    exact ⟨t.ready, (congrArg Host.Outcome.next (disabled_setReady b s)).trans h⟩
  exact ⟨b, exec_setReady b hen hdis h⟩

/-- Settles O31: each `sent` drops one answer, and no other part of ENABLE touches them. -/
theorem enableTakesOneAnswerPerSend : Obligations.EnableTakesOneAnswerPerSend := by
  intro s t h k
  cases h
  exact answer_enabled s k

/-- Settles O36: a dispatch reads `FRM` from offset 3 on, and the writes of a cycle keep the agreement there. -/
theorem frmHeaderIsNeverEmitted : Obligations.FrmHeaderIsNeverEmitted := by
  intro v s t u m hm ht hu
  have hslice : (cycleFrm v { s with frm := m }).slice 3 61 = (cycleFrm v s).slice 3 61 :=
    Memory.slice_congr 61 fun a ha => read_cycleFrm_congr v (hm a ha)
  rw [tx_of_exec_syncyc ht, tx_of_exec_syncyc hu, hslice]

/-- Settles O8, by the definition of reset. -/
theorem resetLeavesZeros : Obligations.ResetLeavesZeros :=
  ⟨rfl, rfl, rfl, fun a _ => Memory.read_nil a, rfl, rfl, rfl, rfl, rfl⟩

/-- Settles O9: `newSession` is reset with the host's inputs kept. -/
theorem newSessionIsReset : Obligations.NewSessionIsReset :=
  fun _ _ h => step_newSession h

/-- Settles O10: no frame has been emitted, so the counter law asks nothing of any. -/
theorem resetMeetsInvariant : Obligations.ResetMeetsInvariant := by
  have hring : RingInStep State.reset := ⟨rfl, rfl⟩
  have hctr : CountersConsecutive State.reset := ⟨rfl, fun _ _ he => by simp [State.reset] at he⟩
  exact ⟨reset_frm_wf, hring, hctr⟩

end Sys2Proof.Proofs

/-! SUPPORT and PROOFS. The statements of 20_memory.md: a step on an issued word and a step with nothing issued; the
result ports are written by every instruction and read by none, so DECODE, which writes nothing else, commutes. -/

namespace Sys2Proof.Machine

/-! ### Steps by the next event (R22, R62) -/

/-- A step on a word that decodes. -/
theorem step_issue {s : State} {w : Word} {es : List HostEvent} {i : Instr} (h : s.pending = .issue w :: es)
    (hw : decode w = .ok i) : step s = exec i { s with pending := es } := by
  simp only [step, fetch, h, hw]

/-- A step with nothing issued. -/
theorem step_idle {s : State} (h : s.pending = []) : step s = .next s := by
  simp only [step, fetch, h, idle]

/-! ### The result ports are read by nothing (R21, R62) -/

/-- The state `s` with the result ports of `p`: what is left of an operation that changes nothing else. -/
def withPorts (p s : State) : State := { s with status := p.status, samples := p.samples, frame := p.frame }

section PortsOverwritten

variable (p s : State)

@[simp] theorem finish_withPorts (st : Status) : finish st (withPorts p s) = finish st s := rfl

@[simp] theorem finishDecode_withPorts (r : DecodeResult) : finishDecode r (withPorts p s) = finishDecode r s := by
  cases r <;> rfl

@[simp] theorem buildOn_withPorts (c id : Byte) (q : List Byte) :
    buildOn c id q (withPorts p s) = buildOn c id q s := by
  unfold buildOn; split <;> rfl

@[simp] theorem answer_withPorts (k : Nat) : answer (withPorts p s) k = answer s k := rfl

@[simp] theorem setReady_withPorts (b : Bool) : setReady b (withPorts p s) = withPorts p (setReady b s) := rfl

@[simp] theorem pulse_withPorts : pulse (withPorts p s) = withPorts p (pulse s) := rfl

@[simp] theorem sent_withPorts (id : Byte) (q : List Byte) : sent id q (withPorts p s) = withPorts p (sent id q s) := by
  simp only [sent_eq]; rfl

@[simp] theorem enabled_withPorts : enabled (withPorts p s) = enabled s := by simp [enabled]

@[simp] theorem disabled_withPorts : disabled (withPorts p s) = disabled s := by
  cases h : answer s 0 <;> simp [disabled, h]

@[simp] theorem cycled_withPorts (base : Nat) (id : Byte) (aux : List (Nat × Byte)) (v : Sample) :
    cycled base id aux v (withPorts p s) = cycled base id aux v s := by
  by_cases h : s.slot = 2
  · rw [cycled_dispatch _ _ _ _ h, cycled_dispatch _ _ _ _ (s := withPorts p s) h]; rfl
  · rw [cycled_fill _ _ _ _ h, cycled_fill _ _ _ _ (s := withPorts p s) h]; rfl

/-- Every instruction overwrites the result ports and reads none of them. -/
theorem exec_withPorts (i : Instr) : exec i (withPorts p s) = exec i s := by
  cases i with
  | decode | rptStd => simp [exec, execDecode, execRptStd]
  | build | frame | frameSetModeStd | frameTelemetryOn | frameTelemetryOff | frameSynth =>
    exact congrArg Host.Outcome.next (buildOn_withPorts p s ..)
  | send => simp [exec, execSend]
  | enable => exact congrArg Host.Outcome.next (enabled_withPorts p s)
  | disable => exact congrArg Host.Outcome.next (disabled_withPorts p s)
  | syncyc v => exact congrArg Host.Outcome.next (cycled_withPorts p s ..)
  | encslot => rfl

end PortsOverwritten

/-- DECODE reads no state and writes the result ports only: what it answers from one state it answers from every other
(R110, R116). -/
theorem exec_decode_from {rx : List Byte} {len : Nat} {s t : State} (h : exec (.decode rx len) s = .next t)
    (u : State) : exec (.decode rx len) u = .next (withPorts t u) := by
  simp only [exec, execDecode] at h ⊢
  split at h <;> cases h
  · exact if_pos ‹_›
  · rw [if_neg ‹_›]
    cases decodeRx rx len <;> rfl

/-- A DECODE leaves the state with other result ports. -/
theorem eq_withPorts_of_exec_decode {rx : List Byte} {len : Nat} {s t : State}
    (h : exec (.decode rx len) s = .next t) : t = withPorts t s :=
  Host.Outcome.next.inj (h.symm.trans (exec_decode_from h s))

end Sys2Proof.Machine

namespace Sys2Proof.Proofs

open Sys2Proof Sys2Proof.Machine Sys2Proof.Claims

/-- Settles O20: a DECODE changes the result ports alone, which no instruction reads, and its own answer depends on no
state. -/
theorem decodeCommutes : Obligations.DecodeCommutes := by
  intro rx len i s t u ht hu
  have hi : exec i t = exec i s := by rw [eq_withPorts_of_exec_decode ht, exec_withPorts]
  exact ⟨hi.trans hu, withPorts t u, exec_decode_from ht u, rfl, rfl⟩

/-- Settles O4, by the two kinds of next event. -/
theorem stepRunsTheDecodedInstruction : Obligations.StepRunsTheDecodedInstruction :=
  ⟨fun _ _ _ _ => step_issue, fun _ => step_idle⟩

end Sys2Proof.Proofs

/-! SUPPORT and PROOFS. The statements of 30_encoding.md: when each of the three decoders answers what, and that
`encode` undoes it; a step on a word that is no instruction; what the wire rows give; the rows that the emitted frames are. -/

namespace Sys2Proof

/-! ### The command port (R95, R97) -/

/-- A command word is refused exactly when `op` selects no operation. -/
theorem decodeCommand_badOp_iff (w : CommandWord) : decodeCommand w = .error .badOp ↔ 7 ≤ w.op.toNat := by
  unfold decodeCommand
  split
  case h_8 =>
    simp only [imp_false, true_iff] at *
    omega
  all_goals next hop => simp [hop]

/-! ### Inbound buffers (R81, R82) -/

/-- A sample-bearing report is the row RPT.STD. -/
theorem decodeReport_std {rest : List Byte} (hlo : 48 ≤ rest.length) (hhi : rest.length ≤ 63) :
    decodeReport (0x30 :: rest) = .ok (.rptStd rest) :=
  (if_neg (by omega)).trans (if_pos ⟨rfl, hlo⟩)

/-- A report that is accepted is the row RPT.STD. -/
theorem decodeReport_ok {rx : List Byte} {i : Instr} (h : decodeReport rx = .ok i) :
    ∃ rest, rx = 0x30 :: rest ∧ 48 ≤ rest.length ∧ rest.length ≤ 63 ∧ i = .rptStd rest := by
  cases rx with
  | nil => cases h
  | cons tag rest =>
    simp only [decodeReport] at h
    split at h
    · cases h
    · split at h
      · next hhi hstd =>
        cases h
        exact ⟨rest, by rw [hstd.1], hstd.2, by omega, rfl⟩
      · cases h

/-- A report of more than 64 bytes is refused as too long (R97). -/
theorem decodeReport_tooLong {rx : List Byte} (h : 64 < rx.length) : decodeReport rx = .error .reportTooLong := by
  cases hd : decodeReport rx with
  | ok i =>
    obtain ⟨rest, rfl, -, hhi, -⟩ := decodeReport_ok hd
    rw [List.length_cons] at h; omega
  | error e =>
    obtain ⟨rfl, -⟩ | ⟨-, hle, -⟩ := Machine.decodeReport_error hd
    · rfl
    · omega

/-- A report that fits and is not sample-bearing is no telemetry (R82, R112). -/
theorem decodeReport_notSampleBearing {rx : List Byte} (hle : rx.length ≤ 64)
    (h : rx.length < 49 ∨ rx[0]? ≠ some 0x30) : decodeReport rx = .error .notSampleBearing := by
  cases hd : decodeReport rx with
  | ok i =>
    obtain ⟨rest, rfl, hlo, -, -⟩ := decodeReport_ok hd
    obtain hshort | htag := h
    · rw [List.length_cons] at hshort; omega
    · exact absurd rfl htag
  | error e =>
    obtain ⟨-, hlong⟩ | ⟨rfl, -⟩ := Machine.decodeReport_error hd
    · omega
    · rfl

/-! ### Outbound buffers (R86, R91, R92) -/

section DeviceCommands

variable {id : Byte} {p : List Byte}

theorem isSetModeStd_iff : isSetModeStd id p = true ↔ id = 0x03 ∧ p = 0x30 :: List.replicate 60 0 := by
  simp only [isSetModeStd, Bool.and_eq_true, beq_iff_eq]

theorem isTelemetryOn_iff : isTelemetryOn id p = true ↔ id = 0x40 ∧ p = 0x01 :: List.replicate 60 0 := by
  simp only [isTelemetryOn, Bool.and_eq_true, beq_iff_eq]

theorem isTelemetryOff_iff : isTelemetryOff id p = true ↔ id = 0x40 ∧ p = 0x00 :: List.replicate 60 0 := by
  simp only [isTelemetryOff, Bool.and_eq_true, beq_iff_eq]

end DeviceCommands

/-- A 64-byte buffer with the marker is read by its fields. -/
theorem decodeFrame_marked (sink : Sink) (c id : Byte) {p : List Byte} (h : p.length = 61) :
    decodeFrame sink (0x80 :: c :: id :: p) = .ok (decodeFrameFields sink c id p) := if_pos ⟨rfl, h⟩

/-- An outbound buffer that is accepted has 64 bytes and the marker, and is read by its fields. -/
theorem decodeFrame_ok {sink : Sink} {bytes : List Byte} {i : Instr} (h : decodeFrame sink bytes = .ok i) :
    ∃ c id p, bytes = 0x80 :: c :: id :: p ∧ p.length = 61 ∧ i = decodeFrameFields sink c id p := by
  match bytes with
  | [] | [_] | [_, _] => cases h
  | marker :: c :: id :: p =>
    simp only [decodeFrame] at h
    split at h
    · next hfmt =>
      cases h
      exact ⟨c, id, p, by rw [hfmt.1], hfmt.2, rfl⟩
    · cases h

/-- A well-formed FRAME is named by no device command, so its fields are read as FRAME. -/
theorem decodeFrameFields_generic {c id : Byte} {p : List Byte} (h : (Instr.frame c id p).wellFormed = true) :
    decodeFrameFields .transport c id p = .frame c id p := by
  simp only [Instr.wellFormed, Bool.and_eq_true, Bool.not_eq_true'] at h
  obtain ⟨⟨⟨-, hmode⟩, hon⟩, hoff⟩ := h
  simp [decodeFrameFields, hmode, hon, hoff]

/-- The fields of a frame are read as an instruction whose word is that frame. -/
theorem encode_decodeFrameFields (sink : Sink) (c id : Byte) (p : List Byte) :
    encode (decodeFrameFields sink c id p) = .frame sink (0x80 :: c :: id :: p) := by
  cases sink with
  | pairing => rfl
  | transport =>
    simp only [decodeFrameFields]
    split
    · next hmode => obtain ⟨rfl, rfl⟩ := isSetModeStd_iff.mp hmode; rfl
    · split
      · next hon => obtain ⟨rfl, rfl⟩ := isTelemetryOn_iff.mp hon; rfl
      · split
        · next hoff => obtain ⟨rfl, rfl⟩ := isTelemetryOff_iff.mp hoff; rfl
        · rfl

/-- The fields of a 64-byte frame are read as a well-formed instruction. -/
theorem decodeFrameFields_wellFormed (sink : Sink) (c id : Byte) {p : List Byte} (h : p.length = 61) :
    (decodeFrameFields sink c id p).wellFormed = true := by
  cases sink with
  | pairing => exact decide_eq_true h
  | transport =>
    simp only [decodeFrameFields]
    split
    · rfl
    · split
      · rfl
      · split
        · rfl
        · next hmode hon hoff => simp [Instr.wellFormed, h, hmode, hon, hoff]

/-! ### The frames of the builder are rows of the table (R91, R92, R151) -/

open Machine (build build_full)

theorem decode_build_setModeStd (c : Byte) :
    decode (.frame .transport (build c 0x03 [0x30])) = .ok (.frameSetModeStd c) := rfl

theorem decode_build_telemetryOn (c : Byte) :
    decode (.frame .transport (build c 0x40 [0x01])) = .ok (.frameTelemetryOn c) := rfl

theorem decode_build_telemetryOff (c : Byte) :
    decode (.frame .transport (build c 0x40 [0x00])) = .ok (.frameTelemetryOff c) := rfl

/-- A full frame for the pairing layer is the row FRAME.SYNTH. -/
theorem decode_build_pairing (c id : Byte) {p : List Byte} (h : p.length = 61) :
    decode (.frame .pairing (build c id p)) = .ok (.frameSynth c id p) := by
  rw [build_full c id h]
  exact decodeFrame_marked .pairing c id h

end Sys2Proof

namespace Sys2Proof.Machine

/-! ### A step on a word that is no instruction (R97, R200) -/

/-- A step on a word that is refused. -/
theorem step_reject {s : State} {w : Word} {es : List HostEvent} {e : DecodeError}
    (h : s.pending = .issue w :: es) (hw : decode w = .error e) : step s = reject e { s with pending := es } := by
  simp only [step, fetch, h, hw]

/-! ### Frames given and frames emitted -/

/-- A payload that does not fit is refused (R153). -/
theorem buildOn_tooLong (c id : Byte) {p : List Byte} (s : State) (h : 61 < p.length) :
    buildOn c id p s = finish .badOperand s := if_pos h

/-- The frames of ENABLE: the second only when the first write succeeds (R159, R160). -/
theorem enabled_tx (s : State) :
    (enabled s).tx = s.tx ++ ⟨.transport, build s.ctr 0x03 [0x30]⟩ ::
      if answer s 0 then [⟨.transport, build (s.ctr + 1) 0x40 [0x01]⟩] else [] := by
  cases h0 : answer s 0 with
  | false => simp [enabled, h0]
  | true => cases h1 : answer s 1 <;> simp [enabled, h0, h1]

/-- The one frame of DISABLE (R163). -/
theorem disabled_tx (s : State) : (disabled s).tx = s.tx ++ [⟨.transport, build s.ctr 0x40 [0x00]⟩] := by
  cases h0 : answer s 0 <;> simp [disabled, h0]

end Sys2Proof.Machine

namespace Sys2Proof.Claims

open Sys2Proof.Machine

/-! ### What the shared operations give, in the words of the statements -/

/-- The builder gives the layout of R86 (R151). -/
theorem isFrame_build (c id : Byte) {p : List Byte} (h : p.length ≤ 61) : IsFrame (build c id p) c id p := by
  obtain ⟨hmarker, hctr, hid⟩ := build_header c id p
  refine ⟨length_build c id h, hmarker, hctr, hid, fun k hk => ?_, fun a hlo hhi => ?_⟩
  · rw [getElem?_build, if_pos hk]
  · obtain ⟨k, rfl⟩ : ∃ k, a = 3 + k := ⟨a - 3, by omega⟩
    rw [getElem?_build, if_neg (by omega), if_pos (by omega)]

/-- A 16-bit read is the two's complement field at its offset (R12, R85). -/
theorem fieldAt_rd16le {rx : List Byte} {a : Nat} (h : a + 2 ≤ rx.length) : FieldAt rx a (rd16le rx a) := by
  have hlo : rx[a]? = some (rx.getD a 0) := by simp [List.getElem?_eq_getElem (show a < rx.length by omega)]
  have hhi : rx[a + 1]? = some (rx.getD (a + 1) 0) := by
    simp [List.getElem?_eq_getElem (show a + 1 < rx.length by omega)]
  exact ⟨_, _, hlo, hhi, sext16_toInt _ _⟩

/-- Field `j` of a sample is read at `base + 2 j` (R83, R84). -/
theorem readSample_field {rx : List Byte} {base j : Nat} {x : Int} (h : (readSample rx base).toList[j]? = some x) :
    j < 6 ∧ x = rd16le rx (base + 2 * j) := by
  have hj : j < 6 := by simpa using (List.getElem?_eq_some_iff.mp h).1
  refine ⟨hj, ?_⟩
  interval_cases j <;> exact (Option.some.inj h).symm

/-- The twelve bytes at `base` hold the sample read there (R83, R114). -/
theorem sampleAt_readSample {rx : List Byte} {base : Nat} (h : base + 12 ≤ rx.length) :
    SampleAt rx base (readSample rx base) := by
  intro j x hx
  obtain ⟨hj, rfl⟩ := readSample_field hx
  exact fieldAt_rd16le (by omega)

end Sys2Proof.Claims

namespace Sys2Proof.Proofs

open Sys2Proof Sys2Proof.Machine Sys2Proof.Claims

/-- Settles O1, by the rows of the table: a command word by its `op`, a buffer by the decoder of its format. -/
theorem decodeEncodeRoundTrip : Obligations.DecodeEncodeRoundTrip := by
  intro i hwf
  cases i with
  | decode | encslot | build | send | enable | disable | syncyc => rfl
  | rptStd rest =>
    simp only [Instr.wellFormed, Bool.and_eq_true, decide_eq_true_eq] at hwf
    exact decodeReport_std hwf.1 hwf.2
  | frame c id p =>
    have hlen : p.length = 61 := by
      simp only [Instr.wellFormed, Bool.and_eq_true, decide_eq_true_eq] at hwf
      exact hwf.1.1.1
    exact (decodeFrame_marked .transport c id hlen).trans (congrArg _ (decodeFrameFields_generic hwf))
  | frameSetModeStd c => exact decode_build_setModeStd c
  | frameTelemetryOn c => exact decode_build_telemetryOn c
  | frameTelemetryOff c => exact decode_build_telemetryOff c
  | frameSynth c id p => exact decodeFrame_marked .pairing c id (of_decide_eq_true hwf)

/-- Settles O2, by the format of the buffer. -/
theorem buffersHaveOneReading : Obligations.BuffersHaveOneReading := by
  refine ⟨fun w i h hbuf => ?_, decodeCommand_badOp_iff⟩
  cases w with
  | command c => exact absurd rfl (hbuf c)
  | report rx =>
    obtain ⟨rest, rfl, hlo, hhi, rfl⟩ := decodeReport_ok h
    exact ⟨rfl, by simp [Instr.wellFormed, hlo, hhi]⟩
  | frame sink bytes =>
    obtain ⟨c, id, p, rfl, hlen, rfl⟩ := decodeFrame_ok h
    exact ⟨encode_decodeFrameFields sink c id p, decodeFrameFields_wellFormed sink c id hlen⟩

/-- Settles O38: a row RPT.STD is long enough for its three samples, and its stated length is true. -/
theorem standardReportDeliversSamples : Obligations.StandardReportDeliversSamples := by
  intro rest s
  have hlen : (0x30 :: rest).length = rest.length + 1 := rfl
  refine ⟨fun hlo hhi => ?_, fun hshort => ?_, fun hlong => if_pos hlong⟩
  · refine ⟨⟨readSample (0x30 :: rest) 13, readSample (0x30 :: rest) 25, readSample (0x30 :: rest) 37⟩, ?_,
      sampleAt_readSample (by omega), sampleAt_readSample (by omega), sampleAt_readSample (by omega)⟩
    simp only [exec, execRptStd]
    rw [if_neg (by omega), decodeRx_sampleBearing (by omega) hlen.ge rfl, List.take_of_length_le hlen.le]
    rfl
  · simp only [exec, execRptStd, decodeRx]
    rw [if_neg (by omega), if_pos (by omega)]
    rfl

/-- Settles O39: both rows are `buildOn` of their fields. -/
theorem frameRowsGiveTheirFrame : Obligations.FrameRowsGiveTheirFrame := by
  intro c id p s
  constructor
  · intro hfit
    have hgive : execBuild c id p s = .next (finishFrame (build c id p) s) :=
      congrArg _ (buildOn_fits c id s hfit)
    exact ⟨build c id p, isFrame_build c id hfit, hgive, hgive⟩
  · intro hlong
    have hrefuse : execBuild c id p s = .next (finish .badOperand s) :=
      congrArg _ (buildOn_tooLong c id s hlong)
    exact ⟨hrefuse, hrefuse⟩

/-- Settles O41: each emitted frame is the builder's, and the builder's frames are rows of the table. -/
theorem emittedFramesAreTableRows : Obligations.EmittedFramesAreTableRows := by
  intro s t e
  refine ⟨fun h he => ?_, fun h he => ?_, fun h he => ?_, fun v h he => ?_⟩
  · cases h
    obtain rfl : _ = e := by simpa [enabled_tx] using he
    exact decode_build_setModeStd s.ctr
  · cases h
    cases h0 : answer s 0 with
    | false => simp [enabled_tx, h0] at he
    | true =>
      obtain rfl : _ = e := by simpa [enabled_tx, h0] using he
      exact decode_build_telemetryOn (s.ctr + 1)
  · cases h
    obtain rfl : _ = e := by simpa [disabled_tx] using he
    exact decode_build_telemetryOff s.ctr
  · by_cases hslot : s.slot = 2
    · obtain rfl : _ = e := by simpa [tx_of_exec_syncyc h, hslot] using he
      exact ⟨_, decode_build_pairing s.ctr Config.synthId (Memory.length_slice _ 3 61)⟩
    · simp [tx_of_exec_syncyc h, hslot] at he

/-- Settles O3, row by row. -/
theorem specWordsDecode : Obligations.SpecWordsDecode :=
  ⟨rfl, rfl, rfl, rfl, rfl, rfl, rfl, decodeReport_std (rest := List.replicate 48 0) (by decide) (by decide),
    decode_build_setModeStd 9, decode_build_telemetryOn 9, decode_build_telemetryOff 9, rfl,
    decode_build_pairing 9 0x11 (p := 0x22 :: List.replicate 60 0) rfl⟩

/-- Settles O5: the word is refused as `BAD_OP`, which ends the step on the ports alone. -/
theorem reservedOpChangesNothing : Obligations.ReservedOpChangesNothing :=
  fun _ c _ h hop => step_reject h ((decodeCommand_badOp_iff c).mpr hop)

/-- Settles O6, by the two ways a report is refused. -/
theorem unusableReportIsIgnored : Obligations.UnusableReportIsIgnored :=
  fun _ _ _ h =>
    ⟨fun hle hbad => step_reject h (decodeReport_notSampleBearing hle hbad),
      fun hlong => step_reject h (decodeReport_tooLong hlong)⟩

/-- Settles O25: the range check of each operation comes first. -/
theorem badOperandsChangeNothing : Obligations.BadOperandsChangeNothing :=
  fun s => ⟨fun _ => rfl, fun _ _ hlen => if_pos hlen,
    fun c id _ hlong => congrArg Host.Outcome.next (buildOn_tooLong c id s hlong), fun _ _ hlong => if_pos hlong⟩

/-- Settles O40: the payload of each device command fits, and its frame is computed. -/
theorem deviceCommandRowsGiveTheirFrame : Obligations.DeviceCommandRowsGiveTheirFrame := by
  intro c s
  have hgive (id b : Byte) : buildOn c id [b] s = finishFrame ([0x80, c, id, b] ++ List.replicate 60 0) s :=
    buildOn_fits c id s (show 1 ≤ 61 by omega)
  exact ⟨congrArg Host.Outcome.next (hgive 0x03 0x30), congrArg Host.Outcome.next (hgive 0x40 0x01),
    congrArg Host.Outcome.next (hgive 0x40 0x00)⟩

end Sys2Proof.Proofs

/-! SUPPORT and PROOFS. The statements of 40_decode.md: DECODE reads the tag and the motion bytes, each sample exists
or not by the number of bytes, and the first that does not exist is named. -/

namespace Sys2Proof.Machine

/-! ### Which bytes a sample reads (R85, R114, R116) -/

section Congr

variable {rx rx' : List Byte}

theorem rd16le_congr {a : Nat} (hlo : rx[a]? = rx'[a]?) (hhi : rx[a + 1]? = rx'[a + 1]?) :
    rd16le rx a = rd16le rx' a := by
  simp only [rd16le, List.getD_eq_getElem?_getD, hlo, hhi]

/-- A sample is read from its twelve bytes. -/
theorem readSample_congr {base : Nat} (h : ∀ a, base ≤ a → a < base + 12 → rx[a]? = rx'[a]?) :
    readSample rx base = readSample rx' base := by
  have hfield (k : Nat) (hk : k + 1 < 12) : rd16le rx (base + k) = rd16le rx' (base + k) :=
    rd16le_congr (h _ (by omega) (by omega)) (h _ (by omega) (by omega))
  rw [Sample.mk.injEq]
  exact ⟨hfield 0 (by omega), hfield 2 (by omega), hfield 4 (by omega), hfield 6 (by omega), hfield 8 (by omega),
    hfield 10 (by omega)⟩

/-- Cutting a report behind a sample leaves the sample as it is. -/
theorem readSample_take {base len : Nat} (h : base + 12 ≤ len) : readSample (rx.take len) base = readSample rx base :=
  readSample_congr fun _ _ ha => List.getElem?_take_of_lt (by omega)

/-- Whether a sample exists shows in its last byte, so its twelve bytes decide all that `sampleAt` gives. -/
theorem sampleAt_congr {i : Nat} (h : ∀ a, 13 + 12 * i ≤ a → a < 25 + 12 * i → rx[a]? = rx'[a]?) :
    sampleAt rx i = sampleAt rx' i := by
  have hlen : rx.length ≤ 24 + 12 * i ↔ rx'.length ≤ 24 + 12 * i := by
    rw [← List.getElem?_eq_none_iff, ← List.getElem?_eq_none_iff, h _ (by omega) (by omega)]
  have hread : readSample rx (13 + 12 * i) = readSample rx' (13 + 12 * i) :=
    readSample_congr fun a hlo hhi => h a hlo (by omega)
  have hexists : 13 + 12 * i + 12 ≤ rx.length ↔ 13 + 12 * i + 12 ≤ rx'.length := by omega
  simp only [sampleAt, hread, hexists]

/-- The three samples are read from offsets 13 to 48. -/
theorem decodeSamples_congr (h : ∀ a, 13 ≤ a → a < 49 → rx[a]? = rx'[a]?) : decodeSamples rx = decodeSamples rx' := by
  have hsample (i : Nat) (hi : i < 3) : sampleAt rx i = sampleAt rx' i :=
    sampleAt_congr fun a _ _ => h a (by omega) (by omega)
  simp only [decodeSamples, hsample 0 (by omega), hsample 1 (by omega), hsample 2 (by omega)]

end Congr

/-! ### What `decode` answers (R111, R112, R113) -/

/-- The test of length and tag, then the samples; the cut to `len` bytes leaves offsets 13 to 48 as they are. -/
theorem decodeRx_eq (rx : List Byte) (len : Nat) :
    decodeRx rx len = if len < 49 ∨ rx[0]? ≠ some 0x30 then .notTelemetry else decodeSamples rx := by
  unfold decodeRx
  by_cases hlen : len < 49
  · rw [if_pos hlen, if_pos (.inl hlen)]
  · have htag : (rx.take len)[0]? = rx[0]? := List.getElem?_take_of_lt (by omega)
    have hsamples : decodeSamples (rx.take len) = decodeSamples rx :=
      decodeSamples_congr fun a _ ha => List.getElem?_take_of_lt (by omega)
    simp only [hlen, htag, hsamples, if_false, false_or]

theorem sampleAt_eq_some {rx : List Byte} {i : Nat} (h : 25 + 12 * i ≤ rx.length) :
    sampleAt rx i = some (readSample rx (13 + 12 * i)) := if_pos (by omega)

theorem sampleAt_eq_none {rx : List Byte} {i : Nat} (h : rx.length < 25 + 12 * i) : sampleAt rx i = none :=
  if_neg (by omega)

/-- The lowest index whose sample is incomplete is named (R113, R208). -/
theorem decodeSamples_malformed {rx : List Byte} {i : Fin 3} (hmissing : rx.length < 25 + 12 * i.val)
    (hearlier : ∀ k < i.val, 25 + 12 * k ≤ rx.length) : decodeSamples rx = .malformed i := by
  have hnone := sampleAt_eq_none hmissing
  have hsome (k : Nat) (hk : k < i.val) := sampleAt_eq_some (hearlier k hk)
  match i with
  | 0 => simp only [decodeSamples, show sampleAt rx 0 = none from hnone]
  | 1 => simp only [decodeSamples, hsome 0 (by decide), show sampleAt rx 1 = none from hnone]
  | 2 => simp only [decodeSamples, hsome 0 (by decide), hsome 1 (by decide), show sampleAt rx 2 = none from hnone]

/-- Past the test of length and tag no report is ignored. -/
theorem decodeSamples_ne_notTelemetry (rx : List Byte) : decodeSamples rx ≠ .notTelemetry := by
  unfold decodeSamples
  split
  · simp
  · split
    · simp
    · split <;> simp

theorem decodeRx_eq_notTelemetry_iff (rx : List Byte) (len : Nat) :
    decodeRx rx len = .notTelemetry ↔ len < 49 ∨ rx[0]? ≠ some 0x30 := by
  rw [decodeRx_eq]
  split
  · next h => exact iff_of_true rfl h
  · next h => exact iff_of_false (decodeSamples_ne_notTelemetry rx) h

/-! ### What DECODE does (R110) -/

/-- A stated length in range is decoded. -/
theorem exec_decode {len : Nat} (rx : List Byte) (s : State) (h : len ≤ 64) :
    exec (.decode rx len) s = .next (finishDecode (decodeRx rx len) s) := if_neg (by omega)

theorem finishDecode_status_notTelemetry_iff (r : DecodeResult) (s : State) :
    (finishDecode r s).status = some .notTelemetry ↔ r = .notTelemetry := by
  cases r <;> simp [finishDecode]

end Sys2Proof.Machine

namespace Sys2Proof.Proofs

open Sys2Proof Sys2Proof.Machine Sys2Proof.Claims

/-- Settles O16: all three samples exist, and each is read from its twelve bytes; that a call without `OK` delivers none
is what O14 says of the port. -/
theorem decodeDeliversThreeSamples : Obligations.DecodeDeliversThreeSamples := by
  refine ⟨fun rx len s hlo hhi hlen htag => ?_, fun rx len s t h hnotOk => ?_⟩
  · refine ⟨⟨readSample rx 13, readSample rx 25, readSample rx 37⟩, _, exec_decode rx s hhi, ?_,
      sampleAt_readSample (by omega), sampleAt_readSample (by omega), sampleAt_readSample (by omega)⟩
    rw [decodeRx_sampleBearing hlo hlen htag, readSample_take (by omega), readSample_take (by omega),
      readSample_take (by omega)]
    rfl
  · by_contra hsamples
    obtain ⟨-, hvalid, -⟩ := portsCarryOnlyValidResults _ s t h
    exact hnotOk (hvalid hsamples).1

/-- Settles O17: the status is the answer of `decode`, and that is the test of length and tag. -/
theorem decodeIgnoresNonTelemetry : Obligations.DecodeIgnoresNonTelemetry := by
  intro rx len s hhi
  refine ⟨_, exec_decode rx s hhi, ?_, fun hstatus => ?_⟩
  · rw [finishDecode_status_notTelemetry_iff, decodeRx_eq_notTelemetry_iff]
  · rw [(finishDecode_status_notTelemetry_iff _ s).mp hstatus]
    rfl

/-- Settles O18: the samples are looked up in index order. -/
theorem decodeNamesFirstMissingSample : Obligations.DecodeNamesFirstMissingSample := by
  intro rx len i s hlo hhi htag hmissing hearlier
  have htest : ¬(len < 49 ∨ rx[0]? ≠ some 0x30) := not_or.mpr ⟨by omega, not_not.mpr htag⟩
  rw [exec_decode rx s hhi, decodeRx_eq, if_neg htest, decodeSamples_malformed hmissing hearlier]
  rfl

/-- Settles O19: the tag decides the test, offsets 13 to 48 the samples, and whether those bytes exist shows in them. -/
theorem decodeReadsOnlyTagAndMotion : Obligations.DecodeReadsOnlyTagAndMotion := by
  intro rx rx' len s _ htag hmotion
  have hanswer : decodeRx rx len = decodeRx rx' len := by
    rw [decodeRx_eq, decodeRx_eq, htag, decodeSamples_congr hmotion]
  simp only [exec, execDecode, hanswer]

end Sys2Proof.Proofs

/-! SUPPORT and PROOFS. The statements of 41_encode.md: ENCSLOT writes the split of its operands over the slot's twelve
bytes and nothing else, the split is a function of the operands modulo 65536, and DECODE reads it back. -/

namespace Sys2Proof.Machine

/-! ### The split of an operand (R133) -/

/-- The low byte of the split is `v mod 256`. -/
theorem le16_low (v : Int) : BitVec.ofNat 8 ((v % 65536).toNat % 256) = BitVec.ofInt 8 v := by
  refine BitVec.eq_of_toNat_eq ?_
  rw [BitVec.toNat_ofNat, BitVec.toNat_ofInt]
  omega

/-- The high byte of the split is `floor(v / 256) mod 256`. -/
theorem le16_high (v : Int) : BitVec.ofNat 8 ((v % 65536).toNat / 256 % 256) = BitVec.ofInt 8 (v / 256) := by
  refine BitVec.eq_of_toNat_eq ?_
  rw [BitVec.toNat_ofNat, BitVec.toNat_ofInt]
  omega

theorem le16_eq (v : Int) : le16 v = [BitVec.ofInt 8 v, BitVec.ofInt 8 (v / 256)] := by
  simp only [le16, le16_low, le16_high]

/-- The two bytes of the split, put together, are the operand wrapped to 16 bits (R137). -/
theorem toInt_append_split (v : Int) :
    (BitVec.ofInt 8 (v / 256) ++ BitVec.ofInt 8 v).toInt = (BitVec.ofInt 16 v).toInt := by
  rw [← sext16_toInt, ← le16_low, ← le16_high, sext16_le16]

/-- An operand in the range of an `i16` is not changed by wrapping. -/
theorem toInt_ofInt_of_inRange {v : Int} (hlo : -32768 ≤ v) (hhi : v ≤ 32767) : (BitVec.ofInt 16 v).toInt = v :=
  BitVec.toInt_ofInt_eq_self (by decide) hlo (by omega)

/-- A sample has six fields (R84). -/
theorem toList_index_lt {v : Sample} {j : Nat} {x : Int} (h : v.toList[j]? = some x) : j < 6 := by
  simpa using (List.getElem?_eq_some_iff.mp h).1

/-! ### The slot write (R131, R132, R136) -/

theorem read_encSlot_outside {base slot a : Nat} (f : Memory) (v : Sample)
    (h : ¬(base + 12 * slot ≤ a ∧ a < base + 12 * slot + 12)) : (encSlot base f slot v).read a = f.read a := by
  rw [read_encSlot, if_neg h]

/-- Inside the slot the byte is one of the sample's twelve. -/
theorem read_encSlot_inside {k : Nat} (base : Nat) (f : Memory) (slot : Nat) (v : Sample) (h : k < 12) :
    (encSlot base f slot v).read (base + 12 * slot + k) = (sampleBytes v).getD k 0 := by
  rw [read_encSlot, if_pos (by omega), Nat.add_sub_cancel_left]

/-- The slot write sees the twelve bytes of its operands and nothing else of them. -/
theorem encSlot_congr {v w : Sample} (h : sampleBytes v = sampleBytes w) (base : Nat) (f : Memory) (slot : Nat) :
    encSlot base f slot v = encSlot base f slot w := by
  simp only [encSlot, h]

/-- The later of two writes into a slot is the one that stands (R57, R136). -/
theorem encSlot_encSlot {base slot : Nat} {f : Memory} (v w : Sample) (h : f.wf = true) (hbase : base ≤ 28)
    (hslot : slot ≤ 2) : encSlot base (encSlot base f slot v) slot w = encSlot base f slot w := by
  refine Memory.ext_wf (wf_encSlot w (wf_encSlot v h hbase hslot) hbase hslot) (wf_encSlot w h hbase hslot) fun a => ?_
  rw [read_encSlot base (encSlot base f slot v) slot w, read_encSlot base f slot w]
  split
  · rfl
  · next houtside => exact read_encSlot_outside f v houtside

/-! ### What ENCSLOT does (R130) -/

/-- A slot in range is written. -/
theorem exec_encslot {slot : BitVec 2} (v : Sample) (s : State) (h : slot ≠ 3) :
    exec (.encslot slot v) s = .next (finish .ok (setFrm (encSlot motionBase s.frm slot.toNat v) s)) := if_neg h

/-- Slot 3 is refused (R97). -/
theorem exec_encslot_refused (v : Sample) (s : State) : exec (.encslot 3 v) s = .next (finish .badOperand s) := rfl

end Sys2Proof.Machine

namespace Sys2Proof.Claims

open Sys2Proof.Machine

/-! ### Slots and samples in the words of the statements -/

/-- The slot write leaves the split of the operands in the slot (R131, R133). -/
theorem holds_encSlot (base : Nat) (f : Memory) (slot : Nat) (v : Sample) :
    Holds (encSlot base f slot v).read (base + 12 * slot) v := by
  intro j x hx
  have hj := toList_index_lt hx
  obtain ⟨hlow, hhigh⟩ := getElem?_sampleBytes v hx
  rw [Nat.add_assoc (base + 12 * slot), read_encSlot_inside base f slot v (by omega),
    read_encSlot_inside base f slot v (by omega), List.getD_eq_getElem?_getD, List.getD_eq_getElem?_getD, hlow, hhigh,
    le16_eq]
  exact ⟨rfl, rfl⟩

/-- Where the split of `x` stands, the field read is `x` wrapped to 16 bits (R85, R137). -/
theorem fieldAt_split {bs : List Byte} {a : Nat} {x y : Int} (h : FieldAt bs a y)
    (hlow : bs[a]? = some (BitVec.ofInt 8 x)) (hhigh : bs[a + 1]? = some (BitVec.ofInt 8 (x / 256))) :
    y = (BitVec.ofInt 16 x).toInt := by
  obtain ⟨lo, hi, hlo, hhi, rfl⟩ := h
  obtain rfl : BitVec.ofInt 8 x = lo := Option.some.inj (hlow.symm.trans hlo)
  obtain rfl : BitVec.ofInt 8 (x / 256) = hi := Option.some.inj (hhigh.symm.trans hhi)
  exact toInt_append_split x

/-- Twelve bytes that hold the split of `v`, copied to `base`, are read there as `v` wrapped field by field (R137). -/
theorem sampleAt_holds {bs : List Byte} {base src j : Nat} {get : Nat → Byte} {v w : Sample} {x : Int}
    (hread : SampleAt bs base w) (hholds : Holds get src v) (hcopy : ∀ k < 12, bs[base + k]? = some (get (src + k)))
    (hx : v.toList[j]? = some x) : w.toList[j]? = some (BitVec.ofInt 16 x).toInt := by
  have hj := toList_index_lt hx
  obtain ⟨y, hy⟩ : ∃ y, w.toList[j]? = some y := ⟨_, List.getElem?_eq_getElem (by simpa using hj)⟩
  obtain ⟨hlow, hhigh⟩ := hholds j x hx
  rw [hy, fieldAt_split (hread j y hy) ((hcopy (2 * j) (by omega)).trans (congrArg some hlow))
    ((hcopy (2 * j + 1) (by omega)).trans (congrArg some hhigh))]

/-- The samples of a report stand at `13 + 12 i` (R114). -/
theorem samplesList_sampleAt {bs : List Byte} {r : Samples} {i : Nat} (hi : i < 3) (h0 : SampleAt bs 13 r.s0)
    (h1 : SampleAt bs 25 r.s1) (h2 : SampleAt bs 37 r.s2) :
    ∃ w, (samplesList r)[i]? = some w ∧ SampleAt bs (13 + 12 * i) w := by
  match i with
  | 0 => exact ⟨r.s0, rfl, h0⟩
  | 1 => exact ⟨r.s1, rfl, h1⟩
  | 2 => exact ⟨r.s2, rfl, h2⟩

end Sys2Proof.Claims

namespace Sys2Proof.Proofs

open Sys2Proof Sys2Proof.Machine Sys2Proof.Claims

/-- Settles O21: the next state differs in `FRM` and the result ports, and its `FRM` is the slot write of the old. -/
theorem encslotWritesItsSlotOnly : Obligations.EncslotWritesItsSlotOnly := by
  intro slot v s hslot
  exact ⟨_, exec_encslot v s hslot, rfl, holds_encSlot motionBase s.frm slot.toNat v,
    fun _ => read_encSlot_outside s.frm v⟩

/-- Settles O22: ENCSLOT leaves the split of each operand in the slot (O21), DECODE reads the bytes of a sample as two's
complement fields (O16), and the split read so is the operand wrapped to 16 bits. -/
theorem slotRoundTripsThroughDecode : Obligations.SlotRoundTripsThroughDecode := by
  intro slot v s t rx len i s' hslot ht hlo hhi hlen htag hi hcopy
  obtain rfl := Host.Outcome.next.inj ((exec_encslot v s hslot).symm.trans ht)
  obtain ⟨r, u, hu, hports, h0, h1, h2⟩ := decodeDeliversThreeSamples.1 rx len s' hlo hhi hlen htag
  obtain ⟨w, hw, hread⟩ := samplesList_sampleAt hi h0 h1 h2
  have hslotHolds := holds_encSlot motionBase s.frm slot.toNat v
  exact ⟨r, w, u, hu, congrArg State.status hports, congrArg State.samples hports, hw, fun _ _ hx =>
    ⟨_, sampleAt_holds hread hslotHolds hcopy hx, rfl, toInt_ofInt_of_inRange⟩⟩

/-- Settles O23: both instructions use their operands in the slot write alone, which sees their split. -/
theorem operandsMatterModulo65536 : Obligations.OperandsMatterModulo65536 := by
  intro v w s hvw
  have hwrite := encSlot_congr (sampleBytes_congr hvw)
  constructor
  · intro slot
    simp only [exec, execEncslot, hwrite]
  · simp only [exec, execSyncyc, cycled, hwrite]

/-- Settles O24: slot 3 is refused each time; in another slot the second write stands, and the result ports are
overwritten. -/
theorem secondEncslotStands : Obligations.SecondEncslotStands := by
  intro slot v w s t hcanonical ht
  by_cases hslot : slot = 3
  · subst hslot
    obtain rfl := Host.Outcome.next.inj ((exec_encslot_refused v s).symm.trans ht)
    rfl
  · obtain rfl := Host.Outcome.next.inj ((exec_encslot v s hslot).symm.trans ht)
    have hframe := encSlot_encSlot v w hcanonical motionBase_bounds.2 (slot_le_two hslot)
    rw [exec_encslot w _ hslot, exec_encslot w s hslot, finish_frm, setFrm_frm, hframe]
    rfl

end Sys2Proof.Proofs

/-! SUPPORT and PROOFS. The statements of 42_framer.md: the layout of the builder determines its fields; what SEND,
ENABLE and DISABLE do, by the transport's answers; the counters of emitted frames run on, and every step keeps the
invariant. -/

namespace Sys2Proof.Machine

/-! ### The builder (R151, R152) -/

/-- A frame of a payload of known length determines its fields. -/
theorem build_inj {c id c' id' : Byte} {p p' : List Byte} (hlen : p.length = p'.length)
    (h : build c id p = build c' id' p') : c = c' ∧ id = id' ∧ p = p' := by
  simpa [build, hlen] using h

/-- A trailing zero byte of the payload is the first byte of the padding. -/
theorem build_append_zero (c id : Byte) {p : List Byte} (h : p.length ≤ 60) :
    build c id (p ++ [0]) = build c id p := by
  have hpad : 61 - p.length = 61 - (p ++ [0]).length + 1 := by rw [List.length_append, List.length_singleton]; omega
  simp only [build, hpad, List.replicate_succ, List.append_assoc, List.singleton_append]

/-- The counter stands in byte 1 and in no other. -/
theorem getElem?_build_of_ne_one (c c' id : Byte) (p : List Byte) {a : Nat} (h : a ≠ 1) :
    (build c id p)[a]? = (build c' id p)[a]? :=
  match a with
  | 0 => rfl
  | 1 => absurd rfl h
  | _ + 2 => rfl

/-! ### What BUILD, SEND, ENABLE and DISABLE do (R150, R155, R159, R163) -/

/-- BUILD of a payload that fits. -/
theorem exec_build (c id : Byte) {p : List Byte} (s : State) (h : p.length ≤ 61) :
    exec (.build c id p) s = .next (finishFrame (build c id p) s) := congrArg _ (buildOn_fits c id s h)

/-- SEND of a payload that fits. -/
theorem exec_send (id : Byte) {p : List Byte} (s : State) (h : p.length ≤ 61) :
    exec (.send id p) s = .next (finish (sendStatus (answer s 0)) (sent id p s)) := if_neg (by omega)

section ByAnswers

variable {s : State}

theorem enabled_of_firstFailed (h0 : answer s 0 = false) :
    enabled s = finish (.handshakeFailed .first) (setReady false (sent 0x03 [0x30] s)) := by
  simp [enabled, h0]

theorem enabled_of_secondFailed (h0 : answer s 0 = true) (h1 : answer s 1 = false) :
    enabled s = finish (.handshakeFailed .second) (setReady false (sent 0x40 [0x01] (sent 0x03 [0x30] s))) := by
  simp [enabled, h0, h1]

theorem enabled_of_bothSent (h0 : answer s 0 = true) (h1 : answer s 1 = true) :
    enabled s = finish .ok (setReady true (sent 0x40 [0x01] (sent 0x03 [0x30] s))) := by
  simp [enabled, h0, h1]

theorem disabled_of_failed (h0 : answer s 0 = false) :
    disabled s = finish .ok (setReady false (pulse (sent 0x40 [0x00] s))) := by
  simp [disabled, h0]

theorem disabled_of_sent (h0 : answer s 0 = true) :
    disabled s = finish .ok (setReady false (sent 0x40 [0x00] s)) := by
  simp [disabled, h0]

end ByAnswers

/-- Everything two sends in a row do to the state, but for the answers they take. -/
theorem sent_sent_eq (id id' : Byte) (p p' : List Byte) (s : State) :
    sent id' p' (sent id p s) =
      { s with ctr := s.ctr + 2,
               tx := s.tx ++ [⟨.transport, build s.ctr id p⟩, ⟨.transport, build (s.ctr + 1) id' p'⟩],
               oks := (sent id' p' (sent id p s)).oks, draws := (sent id' p' (sent id p s)).draws } := by
  simp [sent_eq, BitVec.add_assoc]

/-! ### Frames with consecutive counters (R156, R157) -/

/-- A frame of 64 bytes with the marker and the counter byte `c` (R86). -/
def Stamped (c : Byte) (e : Emission) : Prop :=
  e.bytes.length = 64 ∧ e.bytes[0]? = some 0x80 ∧ e.bytes[1]? = some c

/-- Frame `n` of the list carries the counter `c + n`. -/
def CountersFrom (c : Byte) (fs : List Emission) : Prop :=
  ∀ (n : Nat) (e : Emission), fs[n]? = some e → Stamped (c + BitVec.ofNat 8 n) e

theorem stamped_build (sink : Sink) (c id : Byte) {p : List Byte} (h : p.length ≤ 61) :
    Stamped c ⟨sink, build c id p⟩ := ⟨length_build c id h, rfl, rfl⟩

theorem countersFrom_nil (c : Byte) : CountersFrom c [] := fun _ _ he => by simp at he

theorem countersFrom_singleton {c : Byte} {e : Emission} (h : Stamped c e) : CountersFrom c [e] := by
  intro n f hf
  obtain ⟨rfl, rfl⟩ : n = 0 ∧ e = f := by simpa [List.getElem?_singleton] using hf
  simpa using h

theorem CountersFrom.append {c : Byte} {fs gs : List Emission} (hfs : CountersFrom c fs)
    (hgs : CountersFrom (c + BitVec.ofNat 8 fs.length) gs) : CountersFrom c (fs ++ gs) := by
  intro n e he
  by_cases hn : n < fs.length
  · exact hfs n e (by rwa [List.getElem?_append_left hn] at he)
  · obtain ⟨k, rfl⟩ : ∃ k, n = fs.length + k := ⟨n - fs.length, by omega⟩
    rw [BitVec.ofNat_add, ← BitVec.add_assoc]
    exact hgs k e (by rwa [List.getElem?_append_right (by omega), Nat.add_sub_cancel_left] at he)

/-- From `s` to `t` a list of frames has been emitted, their counters run on from `CTR`, and `CTR` has advanced by
their number. -/
def Emits (s t : State) : Prop :=
  ∃ fs : List Emission, t.tx = s.tx ++ fs ∧ t.ctr = s.ctr + BitVec.ofNat 8 fs.length ∧ CountersFrom s.ctr fs

theorem Emits.none {s t : State} (htx : t.tx = s.tx) (hctr : t.ctr = s.ctr) : Emits s t :=
  ⟨[], by simp [htx], by simp [hctr], countersFrom_nil s.ctr⟩

theorem emits_stamp (sink : Sink) (id : Byte) {p : List Byte} (s : State) (h : p.length ≤ 61) :
    Emits s (stamp sink id p s) :=
  ⟨[_], rfl, rfl, countersFrom_singleton (stamped_build sink s.ctr id h)⟩

theorem Emits.trans {s t u : State} (hst : Emits s t) (htu : Emits t u) : Emits s u := by
  obtain ⟨fs, htx, hctr, hfs⟩ := hst
  obtain ⟨gs, htx', hctr', hgs⟩ := htu
  rw [hctr] at hctr' hgs
  refine ⟨fs ++ gs, by rw [htx', htx, List.append_assoc], ?_, hfs.append hgs⟩
  rw [hctr', List.length_append, BitVec.ofNat_add, BitVec.add_assoc]

theorem emits_sent (id : Byte) {p : List Byte} (s : State) (h : p.length ≤ 61) : Emits s (sent id p s) :=
  (emits_stamp .transport id s h).trans (.none (dropAnswer_tx _) (dropAnswer_ctr _))

/-- ENABLE's two sends. -/
theorem emits_handshake (s : State) : Emits s (sent 0x40 [0x01] (sent 0x03 [0x30] s)) :=
  (emits_sent 0x03 s (by simp)).trans (emits_sent 0x40 _ (by simp))

/-- Every instruction emits its frames from `CTR` on: at most two sends, or one dispatch. -/
theorem exec_emits {i : Instr} {s t : State} (h : exec i s = .next t) : Emits s t := by
  cases exec_effect h with
  | code | samples | frame | encslot | fill => exact .none rfl rfl
  | send hp => exact emits_sent _ s hp
  | enableOk | enableSecondFailed => exact emits_handshake s
  | enableFirstFailed => exact emits_sent 0x03 s (by simp)
  | disableOk | disableFailed => exact emits_sent 0x40 s (by simp)
  | @dispatch v =>
    exact emits_stamp .pairing Config.synthId (setFrm (cycleFrm v s) s) (Memory.length_slice _ 3 61).le

/-! ### What every instruction keeps (R26, R157, R181, R185) -/

/-- The counter law is the counters from 0. -/
theorem countersConsecutive_iff (s : State) :
    CountersConsecutive s ↔ s.ctr = BitVec.ofNat 8 s.tx.length ∧ CountersFrom 0 s.tx := by
  simp [CountersConsecutive, CountersFrom, Stamped]

theorem Emits.countersConsecutive {s t : State} (h : Emits s t) (hs : CountersConsecutive s) :
    CountersConsecutive t := by
  rw [countersConsecutive_iff] at hs ⊢
  obtain ⟨hctr, hfrom⟩ := hs
  obtain ⟨fs, htx', hctr', hfs⟩ := h
  rw [htx', hctr', hctr]
  refine ⟨by rw [List.length_append, BitVec.ofNat_add], hfrom.append ?_⟩
  simpa [hctr] using hfs

/-- The writes of a cycle keep the canonical form (R180, R184). -/
theorem wf_cycleFrm (v : Sample) {s : State} (h : FrmCanonical s) : (cycleFrm v s).wf = true :=
  wf_encSlot v (Memory.wf_writeAll _ h fun _ hw => (auxWrites_admissible hw).2.1) motionBase_bounds.2 (by omega)

theorem exec_keeps_frmCanonical {i : Instr} {s t : State} (h : exec i s = .next t) (hs : FrmCanonical s) :
    FrmCanonical t := by
  cases exec_effect h with
  | code | samples | frame => exact hs
  | encslot hslot => exact wf_encSlot _ hs motionBase_bounds.2 (slot_le_two hslot)
  | fill => exact wf_cycleFrm _ hs
  | dispatch => exact Memory.wf_nil
  | send | enableOk | enableSecondFailed | enableFirstFailed | disableOk | disableFailed =>
    simpa [FrmCanonical] using hs

/-- A cycle that hands the pairing layer a frame exactly from slot 2 keeps the ring in step. -/
theorem RingInStep.advance {s t : State} (hs : RingInStep s) (hslot : t.slot = s.slot + 1)
    (hcycle : t.cycle = s.cycle + 1)
    (hframes : (t.tx.filter fun e => e.sink == .pairing).length =
      (s.tx.filter fun e => e.sink == .pairing).length + if s.slot = 2 then 1 else 0) : RingInStep t := by
  obtain ⟨hring, hcount⟩ := hs
  have hlast : s.slot = 2 ↔ s.cycle % 3 = 2 := by rw [← hring, Fin.ext_iff]; rfl
  refine ⟨?_, ?_⟩
  · rw [hslot, hcycle, Fin.val_add, hring]
    simp
  · rw [hframes, hcycle, hcount]
    simp only [hlast]
    split <;> omega

theorem exec_keeps_ringInStep {i : Instr} {s t : State} (h : exec i s = .next t) (hs : RingInStep s) :
    RingInStep t := by
  cases exec_effect h with
  | code | samples | frame | encslot => exact hs
  | send | enableOk | enableSecondFailed | enableFirstFailed | disableOk | disableFailed =>
    simpa [RingInStep] using hs
  | fill hslot => exact hs.advance rfl rfl (by simp [hslot])
  | dispatch hslot => exact hs.advance rfl rfl (by simp [hslot, dispatch])

theorem exec_keeps_inv {i : Instr} {s t : State} (h : exec i s = .next t) (hs : Inv s) : Inv t := by
  obtain ⟨hfrm, hring, hctr⟩ := hs
  exact ⟨exec_keeps_frmCanonical h hfrm, exec_keeps_ringInStep h hring, (exec_emits h).countersConsecutive hctr⟩

/-- A word that is no instruction ends on the result ports alone (R97, R205). -/
theorem reject_next {e : DecodeError} {s t : State} (h : reject e s = .next t) : ∃ st, t = finish st s := by
  cases e <;> cases h <;> exact ⟨_, rfl⟩

end Sys2Proof.Machine

namespace Sys2Proof.Proofs

open Sys2Proof Sys2Proof.Machine Sys2Proof.Claims

/-- Settles O11, by what a step can have done: waited, created a session, run an instruction, or refused a word. -/
theorem stepKeepsInvariant : Obligations.StepKeepsInvariant := by
  intro s t hs h
  obtain ⟨-, rfl⟩ | ⟨es, -, rfl⟩ | ⟨w, es, i, -, -, hexec⟩ | ⟨w, es, e, -, -, hreject⟩ := step_cases h
  · exact hs
  · exact resetMeetsInvariant
  · exact exec_keeps_inv hexec hs
  · obtain ⟨st, rfl⟩ := reject_next hreject
    exact hs

/-- Settles O12: each send and each dispatch stamps its frame with `CTR`. -/
theorem emittedCountersRunOn : Obligations.EmittedCountersRunOn := fun _ _ _ h => exec_emits h

/-- Settles O26: a payload that fits is built. -/
theorem buildGivesItsFrame : Obligations.BuildGivesItsFrame := by
  intro c id p s hfit
  exact ⟨build c id p, _, isFrame_build c id hfit, exec_build c id s hfit, rfl⟩

/-- Settles O27: the port `frame` holds what the builder gave, and the builder's padding is zero bytes. -/
theorem buildTellsFramesApart : Obligations.BuildTellsFramesApart := by
  refine ⟨fun c id c' id' p p' s hfit hlen h => ?_, fun c id p s hfit => ?_⟩
  · rw [exec_build c id s hfit, exec_build c' id' s (hlen ▸ hfit)] at h
    have hframe := congrArg State.frame (Host.Outcome.next.inj h)
    exact build_inj hlen (Option.some.inj hframe)
  · have hfit' : (p ++ [0]).length ≤ 61 := by rw [List.length_append]; exact Nat.add_le_add_right hfit 1
    rw [exec_build c id s hfit', exec_build c id s (by omega), build_append_zero c id hfit]

/-- Settles O28: `sent` is everything SEND does but for the result ports. -/
theorem sendStampsAndAdvances : Obligations.SendStampsAndAdvances := by
  intro id p s hfit
  refine ⟨build s.ctr id p, isFrame_build s.ctr id hfit, ?_⟩
  rw [exec_send id s hfit, sent_eq]
  rfl

/-- Settles O29: the second SEND finds `CTR` one further, whatever the first was answered. -/
theorem retriedSendDiffersInCounter : Obligations.RetriedSendDiffersInCounter := by
  intro id p s t u hfit ht hu
  rw [exec_send id _ hfit] at ht hu
  obtain rfl := Host.Outcome.next.inj ht
  obtain rfl := Host.Outcome.next.inj hu
  refine ⟨build s.ctr id p, build (s.ctr + 1) id p, by simp, rfl, rfl, ?_, fun a ha => ?_⟩
  · have hnext : s.ctr ≠ s.ctr + 1 := by bv_omega
    exact fun h => hnext (Option.some.inj h)
  · exact getElem?_build_of_ne_one s.ctr (s.ctr + 1) id p ha

/-- Settles O30, by the two answers. -/
theorem enableByCases : Obligations.EnableByCases := by
  intro s
  refine ⟨build s.ctr 0x03 [0x30], build (s.ctr + 1) 0x40 [0x01], enabled s, isFrame_build _ _ (by simp),
    isFrame_build _ _ (by simp), rfl, ?_⟩
  cases h0 : answer s 0 with
  | false => rw [enabled_of_firstFailed h0, sent_eq]; rfl
  | true =>
    cases h1 : answer s 1 with
    | false => rw [enabled_of_secondFailed h0 h1, sent_sent_eq]; rfl
    | true => rw [enabled_of_bothSent h0 h1, sent_sent_eq]; rfl

/-- Settles O32, by the answer to its one send. -/
theorem disableIsBestEffort : Obligations.DisableIsBestEffort := by
  intro s
  refine ⟨build s.ctr 0x40 [0x00], isFrame_build _ _ (by simp), congrArg Host.Outcome.next ?_⟩
  cases h0 : answer s 0 with
  | false => rw [disabled_of_failed h0, sent_eq]; rfl
  | true => rw [disabled_of_sent h0, sent_eq]; rfl

/-- Settles O33: the frames of ENABLE and DISABLE are the builder's, which computes them. -/
theorem exactControlFrames : Obligations.ExactControlFrames := by
  intro s
  refine ⟨⟨enabled s, rfl, ?_, ?_⟩, disabled s, rfl, disabled_tx s⟩
  · rw [enabled_tx]
    simp [build]
  · cases h0 : answer s 0 <;> simp [enabled_tx, h0, build]

end Sys2Proof.Proofs

/-! SUPPORT and PROOFS. The statements of 43_synthesis.md: a cycle fills its slot and lays its `AUX` writes around the
motion region; in slot 2 the frame is `FRM` from offset 3 on; three cycles in a row fill one frame. -/

namespace Sys2Proof.Machine

/-! ### What SYNCYC does (R180, R182, R183) -/

/-- The frame a cycle hands to the pairing layer in slot 2 (R183). -/
def dispatchedFrame (v : Sample) (s : State) : List Byte :=
  build s.ctr Config.synthId ((cycleFrm v s).slice 3 61)

/-- SYNCYC in slot 0 or 1 (R182). -/
theorem exec_syncyc_fill (v : Sample) {s : State} (h : s.slot ≠ 2) :
    exec (.syncyc v) s =
      .next { s with frm := cycleFrm v s, slot := s.slot + 1, cycle := s.cycle + 1,
                     status := some .ok, samples := none, frame := none } :=
  congrArg _ (cycled_fill motionBase Config.synthId (auxWrites s.cycle) v h)

/-- SYNCYC in slot 2 (R183). -/
theorem exec_syncyc_dispatch (v : Sample) {s : State} (h : s.slot = 2) :
    exec (.syncyc v) s =
      .next { s with frm := [], slot := 0, cycle := s.cycle + 1, ctr := s.ctr + 1,
                     tx := s.tx ++ [⟨.pairing, dispatchedFrame v s⟩],
                     status := some .ok, samples := none, frame := none } := by
  have hfrm : cycleFrm v s = encSlot motionBase (s.frm.writeAll (auxWrites s.cycle)) 2 v := by rw [cycleFrm, h]; rfl
  rw [dispatchedFrame, hfrm]
  exact congrArg _ (cycled_dispatch motionBase Config.synthId (auxWrites s.cycle) v h)

theorem length_dispatchedFrame (v : Sample) (s : State) : (dispatchedFrame v s).length = 64 :=
  length_build _ _ (Memory.length_slice _ 3 61).le

theorem getElem?_dispatchedFrame (v : Sample) (s : State) {a : Nat} (h3 : 3 ≤ a) (h : a < 64) :
    (dispatchedFrame v s)[a]? = some ((cycleFrm v s).read a) := getElem?_build_slice _ _ _ h3 h

/-! ### The `AUX` writes of successive cycles (R184, R186) -/

/-- In the motion region a byte stays as it was under the `AUX` writes of a cycle. -/
theorem lastWrite_auxWrites_getD {n a : Nat} (h : motionBase ≤ a ∧ a < motionBase + 36) (b : Byte) :
    (lastWrite (auxWrites n) a).getD b = b := by
  rw [lastWrite_auxWrites h, Option.getD_none]

/-- Of two lists of writes in a row the later one wins (R186). -/
theorem lastWrite_append_getD (ws us : List (Nat × Byte)) (a : Nat) (b : Byte) :
    (lastWrite (ws ++ us) a).getD b = (lastWrite us a).getD ((lastWrite ws a).getD b) := by
  rw [lastWrite_append]
  cases lastWrite us a <;> rfl

end Sys2Proof.Machine

namespace Sys2Proof.Claims

open Sys2Proof.Machine

/-! ### Slots of `FRM` and of a frame, in the words of the statements -/

/-- A slot lies in the motion region (R88). -/
theorem InSlot.inMotion {k a : Nat} (h : InSlot k a) (hk : k ≤ 2) : motionBase ≤ a ∧ a < motionBase + 36 := by
  obtain ⟨hlo, hhi⟩ := h
  omega

/-- The motion region lies in the payload (R88). -/
theorem payload_of_inMotion {a : Nat} (h : motionBase ≤ a ∧ a < motionBase + 36) : 3 ≤ a ∧ a < 64 := by
  have := motionBase_bounds
  omega

theorem InSlot.not_other {k k' a : Nat} (h : InSlot k a) (hne : k ≠ k') : ¬ InSlot k' a := by
  unfold InSlot at *
  omega

/-- A cycle leaves the split of its operands in its slot (R180). -/
theorem holds_cycleFrm (v : Sample) (s : State) :
    Holds (cycleFrm v s).read (motionBase + 12 * s.slot.val) v := holds_encSlot motionBase _ _ v

/-- Outside its slot a cycle leaves its last `AUX` write, else the byte as before (R184). -/
theorem read_cycleFrm_outside (v : Sample) {s : State} {a : Nat} (h : ¬ InSlot s.slot.val a) :
    (cycleFrm v s).read a = (lastWrite (auxWrites s.cycle) a).getD (s.frm.read a) := by
  rw [cycleFrm, read_encSlot_outside _ v h, Memory.read_writeAll]

/-- A frame that carries the bytes of slot `k` holds the sample that stands there. -/
theorem Holds.in_frame {get : Nat → Byte} {f : List Byte} {k : Nat} {v : Sample}
    (h : Holds get (motionBase + 12 * k) v) (hf : ∀ a, InSlot k a → f[a]? = some (get a)) :
    Holds (fun a => f.getD a 0) (motionBase + 12 * k) v := by
  intro j x hx
  have hj := toList_index_lt hx
  have hbyte : ∀ i < 12, f.getD (motionBase + 12 * k + i) 0 = get (motionBase + 12 * k + i) := fun i hi => by
    rw [List.getD_eq_getElem?_getD, hf _ ⟨by omega, by omega⟩, Option.getD_some]
  obtain ⟨hlow, hhigh⟩ := h j x hx
  exact ⟨(hbyte (2 * j) (by omega)).trans hlow, (hbyte (2 * j + 1) (by omega)).trans hhigh⟩

end Sys2Proof.Claims

namespace Sys2Proof.Proofs

open Sys2Proof Sys2Proof.Machine Sys2Proof.Claims

/-- Settles O34: without a dispatch `FRM` is left with the writes of the cycle. -/
theorem syncycFillsItsSlot : Obligations.SyncycFillsItsSlot := by
  intro v s hslot
  exact ⟨cycleFrm v s, exec_syncyc_fill v hslot, holds_cycleFrm v s, fun _ => read_cycleFrm_outside v⟩

/-- Settles O35: the frame carries `FRM` as the writes of the cycle leave it, from offset 3 on. -/
theorem syncycDispatchesInSlotTwo : Obligations.SyncycDispatchesInSlotTwo := by
  intro v s hslot
  have hval : s.slot.val = 2 := congrArg Fin.val hslot
  obtain ⟨hmarker, hctr, hid⟩ := build_header s.ctr Config.synthId ((cycleFrm v s).slice 3 61)
  refine ⟨dispatchedFrame v s, [], exec_syncyc_dispatch v hslot, Memory.read_nil, length_dispatchedFrame v s, hmarker,
    hctr, hid, ?_, fun a h3 h64 hout => ?_⟩
  · have hholds := holds_cycleFrm v s
    rw [hval] at hholds
    refine hholds.in_frame fun a ha => ?_
    obtain ⟨h3, h64⟩ := payload_of_inMotion (ha.inMotion le_rfl)
    exact getElem?_dispatchedFrame v s h3 h64
  · rw [getElem?_dispatchedFrame v s h3 h64, read_cycleFrm_outside v (by rwa [hval])]

/-- Settles O37: two cycles fill slots 0 and 1 (O34), the third fills slot 2 and dispatches (O35). A later cycle leaves
the slots of the earlier ones alone, as neither its slot nor its `AUX` writes reach them. -/
theorem threeCyclesMakeOneFrame : Obligations.ThreeCyclesMakeOneFrame := by
  intro v0 v1 v2 s hslot hzero
  have h0 : s.slot.val = 0 := congrArg Fin.val hslot
  have hslot1 : s.slot + 1 = 1 := by rw [hslot]; rfl
  obtain ⟨m1, hexec1, hholds1, hrest1⟩ := syncycFillsItsSlot v0 s (by rw [hslot]; decide)
  rw [h0] at hholds1 hrest1
  rw [hslot1] at hexec1
  obtain ⟨m2, hexec2, hholds2, hrest2⟩ := syncycFillsItsSlot v1
    (finish .ok { s with frm := m1, slot := 1, cycle := s.cycle + 1 }) (show (1 : Fin 3) ≠ 2 by decide)
  obtain ⟨f, m3, hexec3, hfresh, hlen, hmarker, hctr, hid, hholds3, hrest3⟩ := syncycDispatchesInSlotTwo v2
    (finish .ok { s with frm := m2, slot := 2, cycle := s.cycle + 2 }) rfl
  simp only [finish_frm, finish_cycle] at hrest2 hrest3
  have hkept1 : ∀ a, InSlot 1 a → f[a]? = some (m2.read a) := fun a ha => by
    have hmotion := ha.inMotion (by decide)
    obtain ⟨h3, h64⟩ := payload_of_inMotion hmotion
    rw [hrest3 a h3 h64 (ha.not_other (by decide)), lastWrite_auxWrites_getD hmotion]
  have hkept0 : ∀ a, InSlot 0 a → f[a]? = some (m1.read a) := fun a ha => by
    have hmotion := ha.inMotion (by decide)
    obtain ⟨h3, h64⟩ := payload_of_inMotion hmotion
    rw [hrest3 a h3 h64 (ha.not_other (by decide)), lastWrite_auxWrites_getD hmotion,
      hrest2 a (ha.not_other (show 0 ≠ 1 by decide)), lastWrite_auxWrites_getD hmotion]
  refine ⟨_, _, _, f, hexec1, hexec2, hexec3, rfl, rfl, rfl, hlen, hmarker, hctr, hid, hholds1.in_frame hkept0,
    hholds2.in_frame hkept1, hholds3, fun a h3 h64 hout => ?_, rfl, rfl, hfresh, rfl⟩
  have hnot : ∀ k ≤ 2, ¬ InSlot k a := fun k hk ha => hout (ha.inMotion hk)
  rw [hrest3 a h3 h64 (hnot 2 le_rfl), hrest2 a (hnot 1 (by decide)), hrest1 a (hnot 0 (by decide)), hzero,
    lastWrite_append_getD, lastWrite_append_getD]

end Sys2Proof.Proofs

/-! SUPPORT and PROOFS. The statement of 60_exceptions.md: an instruction always ends in a next state, so a step is
refused only by a word without a meaning, and the only such word is an outbound buffer that is no frame. -/

namespace Sys2Proof.Machine

/-! ### What ends without a next state (R86, R200) -/

/-- Every instruction runs to a next state: what ends it is a code on `status`, never a stop (R200). -/
theorem exec_total (i : Instr) (s : State) : ∃ t, exec i s = .next t := by
  cases i with
  | decode rx len => simp only [exec, execDecode]; split <;> exact ⟨_, rfl⟩
  | rptStd rest => simp only [exec, execRptStd]; split <;> exact ⟨_, rfl⟩
  | encslot slot v => simp only [exec, execEncslot]; split <;> exact ⟨_, rfl⟩
  | send id p => simp only [exec, execSend]; split <;> exact ⟨_, rfl⟩
  | enable | disable | syncyc | build | frame | frameSetModeStd | frameTelemetryOn | frameTelemetryOff | frameSynth =>
    exact ⟨_, rfl⟩

/-- Of the words that are no instruction, only a buffer without frame format is refused (log entry 12). -/
theorem reject_refused_iff {e : DecodeError} {s : State} {r : Refusal} :
    reject e s = .refused r ↔ e = .noFrameFormat ∧ r = .noWireFormat := by
  cases e <;> simp [reject, eq_comm]

/-- An outbound buffer is refused by the decoder exactly when it is not 64 bytes with the marker (R86). -/
theorem decodeFrame_noFrameFormat_iff {sink : Sink} {bytes : List Byte} :
    decodeFrame sink bytes = .error .noFrameFormat ↔ ¬(bytes.length = 64 ∧ bytes[0]? = some 0x80) := by
  rw [← decodeFrame_ok_iff sink bytes]
  cases hd : decodeFrame sink bytes with
  | ok i => simp
  | error e => simp [decodeFrame_error hd]

/-- The decoder finds no frame format in outbound buffers only. -/
theorem decode_noFrameFormat_iff {w : Word} :
    decode w = .error .noFrameFormat ↔
      ∃ sink bytes, w = .frame sink bytes ∧ ¬(bytes.length = 64 ∧ bytes[0]? = some 0x80) := by
  cases w with
  | command c => exact ⟨fun h => (nomatch decodeCommand_error h), fun ⟨_, _, h, _⟩ => nomatch h⟩
  | report rx =>
    refine ⟨fun h => ?_, fun ⟨_, _, h, _⟩ => nomatch h⟩
    obtain ⟨⟨⟩, -⟩ | ⟨⟨⟩, -⟩ := decodeReport_error h
  | frame sink bytes =>
    refine decodeFrame_noFrameFormat_iff.trans ⟨fun h => ⟨sink, bytes, rfl, h⟩, ?_⟩
    rintro ⟨_, _, ⟨⟩, h⟩
    exact h

/-- A step is refused by the decoder's verdict on the word issued, and by nothing that is run. -/
theorem step_refused_iff {s : State} {r : Refusal} :
    step s = .refused r ↔
      r = .noWireFormat ∧ ∃ w es, s.pending = .issue w :: es ∧ decode w = .error .noFrameFormat := by
  match hp : s.pending with
  | [] => simp [step_idle hp]
  | .newSession :: es => simp [step_newSession hp]
  | .issue w :: es =>
    cases hd : decode w with
    | ok i =>
      obtain ⟨t, ht⟩ := exec_total i { s with pending := es }
      simp [step_issue hp hd, ht, hd]
    | error e => simp [step_reject hp hd, reject_refused_iff, hd, and_comm]

end Sys2Proof.Machine

namespace Sys2Proof.Proofs

open Sys2Proof Sys2Proof.Machine

/-- Settles O7: a fault has no reason to carry, and a step is refused exactly by a word in which the decoder finds no
frame format. -/
theorem onlyAFormlessFrameStops : Obligations.OnlyAFormlessFrameStops := by
  refine fun s => ⟨fun r => (nomatch r), fun r => step_refused_iff.trans (and_congr_right fun _ => ⟨?_, ?_⟩)⟩
  · rintro ⟨w, es, hp, hw⟩
    obtain ⟨sink, bytes, rfl, hform⟩ := decode_noFrameFormat_iff.mp hw
    exact ⟨sink, bytes, es, hp, hform⟩
  · rintro ⟨sink, bytes, es, hp, hform⟩
    exact ⟨.frame sink bytes, es, hp, decodeFrame_noFrameFormat_iff.mpr hform⟩

end Sys2Proof.Proofs
